-- ==== Sys2Proof/Word.lean ====
section
/-! DEFINITION. The word types of the block: the code unit and the eleven character slots of a
request or a response (spec/00_scope.md R6: CHAR_W = 8, STR_MAX = 11). -/

namespace Sys2Proof

/-- One code unit: `CHAR_W` = 8 bits (R6, R11). -/
abbrev Byte := BitVec 8

/-- The `STR_MAX` = 11 character slots of `str_in` and `str_out` (R6, R60, R61); slot 0 is the first
and most significant character (R44). -/
abbrev Slots := Vector Byte 11

end Sys2Proof
end

