-- ==== Sys2Proof/Config.lean ====
section
/-! DEFINITION. What the implementation fixes: the profile (spec/00_scope.md R5) and the bit-width
policies (spec/41_policy.md R120), by name, and the one value the spec leaves open, `LAT`
(spec/70_reset_and_hazards.md R249). The numbers of the first two stand in Machine/Params.lean. -/

namespace Sys2Proof

/-- The two admitted values of `PROFILE` (R5). Any other value is `Machine.Block.other`, and the machine
refuses it. -/
inductive Profile where
  | r64
  | r66
deriving DecidableEq, Repr

/-- The two bit-width policies (R120). -/
inductive Policy where
  | w32
  | w64
deriving DecidableEq, Repr

/-- `LAT` (R249), a free value: the cycles from the acceptance of the `n`-th request the block accepts to
its response becoming valid. "any value ≥ 0, constant or variable per operation"; no proof can see one
(log 13). -/
opaque Config.latency (n : Nat) : Nat

end Sys2Proof
end

