-- ==== Sys2Proof/Syntax.lean ====
section
/-! DEFINITION. The instructions (spec/30_encoding.md R66), the command word's fields (R63), the
request and response bundles (R60, R61), the status names (R70) and the lines of the assembler
(R72). -/

namespace Sys2Proof

/-- The ten operations of the opcode map (R66), one constructor per row. No row has an operand field:
the operands are the other fields of the request (R69, R74). -/
inductive Instr where
  | encp32
  | encp64
  | encu32
  | encu64
  | dec32
  | dec64
  | lutv2c
  | lutc2v
  | pol32
  | pol64
deriving DecidableEq, Repr

/-- The fields of the command word, format `CMD8` (R63): `rsv` = cmd[7:4], `fn` = cmd[3:1],
`w` = cmd[0]. -/
structure Command where
  rsv : BitVec 4
  fn  : BitVec 3
  w   : BitVec 1
deriving DecidableEq, Repr

/-- Why a command is illegal: the three kinds of illegal value R67 lists. All get the same response. -/
inductive Reject where
  /-- `rsv ≠ 0`: 0x10..0xFF. -/
  | reservedBits
  /-- `fn` = 101 or 111: 0x0A, 0x0B, 0x0E, 0x0F. -/
  | reservedFunction
  /-- `fn` = 011 or 100 with `w` = 1: 0x07, 0x09. -/
  | widthNotAllowed
deriving DecidableEq, Repr

/-- A request (R60). The requester drives every field. -/
structure Request where
  cmd   : BitVec 8
  valIn : BitVec 64
  lenIn : BitVec 32
  strIn : Slots
deriving DecidableEq, Repr

/-- The status names (R70); their 4-bit codes are `Machine.statusCode`. -/
inductive Status where
  | ok
  | invalidCharacter
  | lengthExceeded
  | rangeOverflow
  | emptyInput
  | encodeRange
  | digitRange
  | notFound
  | illegalOp
deriving DecidableEq, Repr

/-- A response (R61), field by field with the widths of the table. -/
structure Response where
  status    : BitVec 4
  valOut    : BitVec 64
  lenOut    : BitVec 4
  strOut    : Slots
  errPos    : BitVec 4
  errChar   : BitVec 8
  errLen    : BitVec 32
  errMax    : BitVec 8
  errVal    : BitVec 72
  errMaxval : BitVec 64
deriving DecidableEq, Repr

/-- One line of the assembler (R72), after reading its text. Numbers are still unbounded; whether they
fit their field is `AsmLine.wellFormed`. -/
inductive AsmLine where
  /-- `ENCP32 <num>` and the other mnemonics with a number; also `LUTC2V '<char>'`. -/
  | number (i : Instr) (value : Nat)
  /-- `DEC32 "<chars>"` and `DEC32 len=<num> ["<chars>"]`, and the same for `DEC64`. -/
  | text (i : Instr) (len : Option Nat) (chars : Option (List Byte))
  /-- `POL32`, `POL64`. -/
  | bare (i : Instr)
  /-- `RAW <num> [val=<num>] [len=<num>] [str="<chars>"]`. -/
  | raw (cmd : Nat) (value len : Option Nat) (chars : Option (List Byte))
deriving DecidableEq, Repr

end Sys2Proof
end

