-- ==== Sys2Proof/WellFormed.lean ====
section
/-! DEFINITION. Well-formed command words (spec/30_encoding.md R63, R64) and well-formed assembler
lines (R72). An `Instr` has no operand, so every one of them is well formed once its command word is;
the check of an alphabet (spec/10_state.md R28) stands in Machine/Rom.lean. -/

namespace Sys2Proof

/-- `rsv` must be 0000 (R63). -/
def Command.reservedBitsZero (c : Command) : Bool := c.rsv == 0

/-- `fn` = 101 and `fn` = 111 are reserved (R64). -/
def Command.functionDefined (c : Command) : Bool := c.fn != 0b101 && c.fn != 0b111

/-- `w` must be 0 for `fn` = 011 and `fn` = 100 (R63, R64). -/
def Command.widthAllowed (c : Command) : Bool := c.w == 0 || (c.fn != 0b011 && c.fn != 0b100)

/-- A command word that R63 and R64 allow. -/
def Command.wellFormed (c : Command) : Bool :=
  c.reservedBitsZero && c.functionDefined && c.widthAllowed

/-- The mnemonic takes a number (R72). -/
def Instr.takesNumber : Instr → Bool
  | .encp32 | .encp64 | .encu32 | .encu64 | .lutv2c | .lutc2v => true
  | .dec32 | .dec64 | .pol32 | .pol64 => false

/-- The mnemonic takes a string (R72). -/
def Instr.takesText : Instr → Bool
  | .dec32 | .dec64 => true
  | .encp32 | .encp64 | .encu32 | .encu64 | .lutv2c | .lutc2v | .pol32 | .pol64 => false

/-- An optional number fits a field of `width` bits (log 9: R72 gives no number too wide for its field
a meaning, so the line is refused). -/
def fitsField (width : Nat) : Option Nat → Bool
  | none => true
  | some n => n < 2 ^ width

/-- "At most 11 code units are allowed, and the assembler refuses more" (R72). -/
def fitsSlots : Option (List Byte) → Bool
  | none => true
  | some cs => cs.length ≤ 11

/-- A line the assembler accepts (R72). -/
def AsmLine.wellFormed : AsmLine → Bool
  | .number i v => i.takesNumber && fitsField 64 (some v)
  | .text i len chars => i.takesText && (len.isSome || chars.isSome) && fitsField 32 len && fitsSlots chars
  | .bare i => !i.takesNumber && !i.takesText
  | .raw cmd v len chars => fitsField 8 (some cmd) && fitsField 64 v && fitsField 32 len && fitsSlots chars

end Sys2Proof
end

