-- ==== Sys2Proof/Decode.lean ====
section
/-! DEFINITION. Decoding a command word (spec/30_encoding.md R65: an exact match against the rows of
R66 under mask 0xFF; total on all 256 values), the reason an illegal value is rejected for (R67), and
the encoder, written from the fields of R63 and R64. -/

namespace Sys2Proof

/-- A row of the opcode map (R65, R66). -/
structure OpcodeRow where
  pattern : BitVec 8
  mask    : BitVec 8
  instr   : Instr
deriving DecidableEq, Repr

/-- The opcode map (R66), in its order. -/
def opcodeMap : List OpcodeRow :=
  [⟨0x00, 0xFF, .encp32⟩, ⟨0x01, 0xFF, .encp64⟩, ⟨0x02, 0xFF, .encu32⟩, ⟨0x03, 0xFF, .encu64⟩,
   ⟨0x04, 0xFF, .dec32⟩, ⟨0x05, 0xFF, .dec64⟩, ⟨0x06, 0xFF, .lutv2c⟩, ⟨0x08, 0xFF, .lutc2v⟩,
   ⟨0x0C, 0xFF, .pol32⟩, ⟨0x0D, 0xFF, .pol64⟩]

/-- The fields of a command word (R63). -/
def commandFields (c : BitVec 8) : Command :=
  { rsv := c.extractLsb' 4 4, fn := c.extractLsb' 1 3, w := c.extractLsb' 0 1 }

/-- The command word with these fields (R63): `rsv ++ fn ++ w`. -/
def commandWord (f : Command) : BitVec 8 := (f.rsv ++ f.fn) ++ f.w

/-- Which kind of illegal value `c` is (R67). -/
def rejectReason (c : BitVec 8) : Reject :=
  let f := commandFields c
  if !f.reservedBitsZero then .reservedBits
  else if !f.functionDefined then .reservedFunction
  else .widthNotAllowed

/-- The decoder (R65): total on all 256 values. -/
def decode (c : BitVec 8) : Except Reject Instr :=
  match opcodeMap.find? (fun r => c &&& r.mask == r.pattern) with
  | some r => .ok r.instr
  | none => .error (rejectReason c)

/-- The function field and the width bit of each operation (R64, R66). -/
def Instr.command : Instr → Command
  | .encp32 => ⟨0, 0b000, 0⟩
  | .encp64 => ⟨0, 0b000, 1⟩
  | .encu32 => ⟨0, 0b001, 0⟩
  | .encu64 => ⟨0, 0b001, 1⟩
  | .dec32 => ⟨0, 0b010, 0⟩
  | .dec64 => ⟨0, 0b010, 1⟩
  | .lutv2c => ⟨0, 0b011, 0⟩
  | .lutc2v => ⟨0, 0b100, 0⟩
  | .pol32 => ⟨0, 0b110, 0⟩
  | .pol64 => ⟨0, 0b110, 1⟩

/-- The encoder: the one command word of an operation (R63, R64, R68). -/
def encode (i : Instr) : BitVec 8 := commandWord i.command

/-- The mnemonic of each operation (R66). -/
def Instr.mnemonic : Instr → String
  | .encp32 => "ENCP32"
  | .encp64 => "ENCP64"
  | .encu32 => "ENCU32"
  | .encu64 => "ENCU64"
  | .dec32 => "DEC32"
  | .dec64 => "DEC64"
  | .lutv2c => "LUTV2C"
  | .lutc2v => "LUTC2V"
  | .pol32 => "POL32"
  | .pol64 => "POL64"

/-- The instruction the decoder reads from a word of the opcode table. Every command is one 8-bit word
(R63, R68); a word of another length is no command. -/
def decodeTableWord (nbits w : Nat) : Option Instr :=
  if nbits = 8 ∧ w < 2 ^ 8 then
    match decode (BitVec.ofNat 8 w) with
    | .ok i => some i
    | .error _ => none
  else none

end Sys2Proof
end

