-- ==== Sys2Proof/Machine/Params.lean ====
section
/-! DEFINITION. The numbers of the two profiles (spec/00_scope.md R3, R5) and of the two bit-width
policies (spec/00_scope.md R6, spec/41_policy.md R120). -/

namespace Sys2Proof

/-- `RADIX` (R5). -/
def Profile.radix : Profile → Nat
  | .r64 => 64
  | .r66 => 66

/-- `DIGIT_W`, the digit width in bits (R5). -/
def Profile.digitW : Profile → Nat
  | .r64 => 6
  | .r66 => 7

/-- `count` consecutive ASCII codes from `first` on (R11, R21). -/
def asciiRun (first count : Nat) : List Byte :=
  (List.range count).map fun k => BitVec.ofNat 8 (first + k)

/-- `ALPHABET`, index 0 first (R5, R21): `-`, `.`, the ten digits, `A`..`Z`, in R66 `_`, then `a`..`z`,
in R66 `~`. -/
def Profile.alphabet : Profile → List Byte
  | .r64 => [0x2D, 0x2E] ++ asciiRun 0x30 10 ++ asciiRun 0x41 26 ++ asciiRun 0x61 26
  | .r66 => [0x2D, 0x2E] ++ asciiRun 0x30 10 ++ asciiRun 0x41 26 ++ [0x5F] ++ asciiRun 0x61 26 ++ [0x7E]

/-- The identifier `KHHC-CORE-<PROFILE>` (R3). -/
def Profile.identifier : Profile → String
  | .r64 => "KHHC-CORE-R64"
  | .r66 => "KHHC-CORE-R66"

/-- `L_W`, `maxEncodedLength` of the policy: `L32` = 6, `L64` = 11 (R6, R120). -/
def Policy.maxLen : Policy → Nat
  | .w32 => 6
  | .w64 => 11

/-- `MAX_W`, `maxValue` of the policy: `MAX32` = 2^32 − 1, `MAX64` = 2^64 − 1 (R6, R120). -/
def Policy.maxValue : Policy → Nat
  | .w32 => 4294967295
  | .w64 => 18446744073709551615

end Sys2Proof
end

