-- ==== Sys2Proof/Machine/Rom.lean ====
section
/-! DEFINITION. The two alphabet ROMs (spec/10_state.md R20, R21, R26; spec/20_memory.md R40-R42) as
sparse memories in one canonical form, their contents for a profile, reading a cell, and the alphabet
checks of R28. Nothing writes a ROM (R43), so there is no write. -/

namespace Sys2Proof.Machine

/-- ROM_V2C: entries of one byte at digit addresses (R41). An unlisted address has no entry: R41 lets a
model fault on it. -/
abbrev Memory := List Host.Cell

/-- An entry of ROM_C2V (R26, R42): `1 + width` bits, `found` and `digit`, with `width` = `DIGIT_W` of
the profile. -/
structure C2VEntry (width : Nat) where
  found : Bool
  digit : BitVec width
deriving DecidableEq, Repr

/-- ROM_C2V: entries at code-unit addresses 0x00..0xFF (R42). -/
abbrev C2VMemory (width : Nat) := List (Nat × C2VEntry width)

/-- What an unlisted code unit reads as (R26): `(found = 0, digit = 0)`. -/
def C2VEntry.absent {width : Nat} : C2VEntry width := ⟨false, 0⟩

/-- The unit `alphabet_lut` (R20, R100): the profile and its ROM pair, each ROM with the entry widths of
the profile (R41, R42: 8 bits, and `1 + DIGIT_W` bits). -/
structure Lut where
  profile : Profile
  romV2C  : Memory
  romC2V  : C2VMemory profile.digitW
deriving DecidableEq, Repr

/-- `RADIX` of the unit (R5). -/
def Lut.radix (l : Lut) : Nat := l.profile.radix

/-- The entry at an address of a sparse memory, if there is one. -/
def cellAt {α : Type} : List (Nat × α) → Nat → Option α
  | [], _ => none
  | (k, v) :: m, a => if k = a then some v else cellAt m a

/-- Strictly rising. -/
def strictlyRising : List Nat → Bool
  | a :: b :: t => a < b && strictlyRising (b :: t)
  | _ => true

/-- The canonical form of a byte memory: addresses strictly rising. (An unlisted address of ROM_V2C
reads as nothing, so no entry can equal it.) -/
def Memory.wf (m : Memory) : Bool := strictlyRising (m.map Prod.fst)

/-- The canonical form of ROM_C2V: addresses strictly rising and below 256, and no entry equal to what
an unlisted address reads as. -/
def C2VMemory.wf {width : Nat} (m : C2VMemory width) : Bool :=
  strictlyRising (m.map Prod.fst) && m.all (fun e => e.1 < 256 && e.2 != C2VEntry.absent)

/-- `ROM_V2C[d] = ALPHABET[d]` (R21). -/
def romImage (alphabet : List Byte) : Memory := alphabet.zipIdx.map fun e => (e.2, e.1)

/-- The inverse of ROM_V2C (R26): `(found = 1, digit = d)` at the code unit `ALPHABET[d]`. -/
def inverseImage (width : Nat) (m : Memory) : C2VMemory width :=
  m.map fun cell => (cell.2.toNat, ⟨true, BitVec.ofNat width cell.1⟩)

/-- The unit of a profile (R21, R26). -/
def Lut.ofProfile (p : Profile) : Lut where
  profile := p
  romV2C  := romImage p.alphabet
  romC2V  := inverseImage p.digitW (romImage p.alphabet)

/-- ROM_C2V holds the inverse of ROM_V2C (R26). -/
def Lut.inverseValid (l : Lut) : Bool :=
  decide (l.romC2V = inverseImage l.profile.digitW l.romV2C)

/-- R28 item 1: `|ALPHABET| = RADIX`, one entry at each digit `0..RADIX−1` (R21). -/
def alphabetComplete (radix : Nat) (m : Memory) : Bool := m.map Prod.fst == List.range radix

/-- R28 item 2: the characters are distinct and strictly ascending by code. -/
def alphabetAscending (m : Memory) : Bool := strictlyRising (m.map fun cell => cell.2.toNat)

/-- R28 item 3: every character is printable, in 0x21..0x7E. -/
def alphabetPrintable (m : Memory) : Bool :=
  m.all fun cell => 0x21 ≤ cell.2.toNat && cell.2.toNat ≤ 0x7E

/-- R28 item 4: `ALPHABET[0] = '-'` and `ALPHABET[1] = '.'`. -/
def alphabetStarts (m : Memory) : Bool :=
  cellAt m 0 == some (0x2D : Byte) && cellAt m 1 == some (0x2E : Byte)

/-- R28 item 5: `RADIX^L32 > MAX32` and `RADIX^L64 > MAX64`. -/
def radixLongEnough (radix : Nat) : Bool :=
  Policy.maxValue .w32 < radix ^ Policy.maxLen .w32 && Policy.maxValue .w64 < radix ^ Policy.maxLen .w64

/-- The alphabet invariants of R28, all five. -/
def alphabetValid (radix : Nat) (m : Memory) : Bool :=
  alphabetComplete radix m && alphabetAscending m && alphabetPrintable m && alphabetStarts m &&
    radixLongEnough radix

end Sys2Proof.Machine
end

