-- ==== Sys2Proof/Machine/State.lean ====
section
/-! DEFINITION. The state: the profile and the ROM pair (spec/10_state.md R20), the reset input and
the request and response channels (spec/70_reset_and_hazards.md R241, R246, R247, R249), and the
model's own record of what was accepted and delivered and schedule of what comes next. Faults and
refusals stand outside the rules only (spec/60_exceptions.md R224). -/

namespace Sys2Proof.Machine

/-- A request presented on a port (R220, R246). How requesters are identified is the platform's
concern (R220): a port is a number (log 8). -/
structure PortRequest where
  port : Nat
  req  : Request
deriving DecidableEq, Repr

/-- A response on the port whose request it answers (R220). -/
structure PortResponse where
  port : Nat
  rsp  : Response
deriving DecidableEq, Repr

/-- A response in flight: its request is accepted and it is not delivered yet. `ticket` is the number of
requests accepted before its own, which says its latency (R249), and `age` the cycles since its acceptance
(log 13). -/
structure InFlight extends PortResponse where
  ticket : Nat
  age    : Nat
deriving DecidableEq, Repr

/-- One move of the requesters, the platform, the channels or the clock (R9, R241, R247, R249). -/
inductive Move where
  /-- A requester presents a request: `req_valid` and the bundle (R247). -/
  | issue (q : PortRequest)
  /-- A requester drives `rsp_ready` of its port (R247). -/
  | driveRspReady (port : Nat) (level : Bool)
  /-- The platform drives `rst` (R241). -/
  | driveRst (level : Bool)
  /-- A request transfer: the request at the head is accepted and answered (R8, R247). -/
  | serve
  /-- A response transfer on a port (R247). -/
  | deliver (port : Nat)
  /-- A clock cycle passes (R249). -/
  | cycle
deriving DecidableEq, Repr

/-- The block, as `PROFILE` configures it (R5, R20): the unit of an admitted profile, which holds PROFILE,
ROM_V2C and ROM_C2V; or a PROFILE that is neither `R64` nor `R66`. R5: "A model must refuse any other
value". -/
inductive Block where
  | admitted (l : Lut)
  | other (tag : Nat)
deriving DecidableEq, Repr

/-- The state. `block` holds the profile and the ROM pair (R5, R20; log 1); `rst`, `requests`,
`inFlight` and `rspReady` are its interface (R241, R246, R247, R249); `delivered`, `agenda` and `accepted`,
the number of requests accepted, are the model's own (log 5, log 6, log 13). -/
structure State where
  block     : Block
  rst       : Bool
  requests  : List PortRequest
  inFlight  : List InFlight
  rspReady  : List Nat
  delivered : List PortResponse
  agenda    : List Move
  accepted  : Nat
deriving DecidableEq, Repr

/-- Why the machine stops. -/
inductive Fault where
  /-- A read of ROM_V2C at an address without an entry (R41; 93_implementation_defined.md I13), raised
  by `readV2C`. The spec shows it unreachable (R54). Safe. -/
  | romV2CNoEntry (address : Nat)
  /-- A reserved status code 9..15 on the response channel (93_implementation_defined.md I12), raised by
  `deliverOn`. No operation produces one (R70). Safe. -/
  | reservedStatus (code : Nat)
deriving DecidableEq, Repr

/-- Why the model gives no meaning. -/
inductive Refusal where
  /-- An instruction whose meaning is not written yet, by its mnemonic. Safe. -/
  | notModelled (mnemonic : String)
  /-- `PROFILE` is neither R64 nor R66: "A model must refuse any other value" (R5), raised by
  `State.lut`. Safe. -/
  | profileNotAdmitted
  /-- The alphabet in ROM_V2C breaks R28 (R224; 93_implementation_defined.md I1), raised by `State.lut`.
  Safe. -/
  | alphabetInvalid
  /-- ROM_C2V does not hold the inverse of ROM_V2C (R26), so the state is no k-hhc core's; raised by
  `State.lut` (log 3). Safe. -/
  | inverseInvalid
  /-- `exec` was asked to answer a request and none is presented, raised by `transact`. `step` never
  does this. Safe. -/
  | noRequest
deriving DecidableEq, Repr

/-- An outcome of this machine. -/
abbrev Outcome := Host.Outcome State Fault Refusal

/-- The machine right after reset (R30, R240, R243): the ROM pair of the default profile R64 (R5), `rst`
deasserted, nothing in flight; no requester has driven a request or `rsp_ready` yet (log 4), and none was
accepted (log 13). -/
def State.reset : State where
  block     := .admitted (Lut.ofProfile .r64)
  rst       := false
  requests  := []
  inFlight  := []
  rspReady  := []
  delivered := []
  agenda    := []
  accepted  := 0

end Sys2Proof.Machine
end

