-- ==== Sys2Proof/Machine/Operands.lean ====
section
/-! DEFINITION. Operands and results: the character slots and their packing (spec/20_memory.md R44,
R45), the numeric and the string operand (spec/30_encoding.md R69, R74), digit expansion and its value
(spec/00_scope.md R13), strings and their order (R11). -/

namespace Sys2Proof.Machine

/-- Slot `i` (R60, R61). A slot past the eleventh does not exist; no rule reads one. -/
def slotAt (v : Slots) (i : Nat) : Byte := v.toList.getD i 0

/-- The slots that hold `cs` from slot 0 on, and 0x00 after it (R62, R72). -/
def slotsOf (cs : List Byte) : Slots :=
  #v[cs.getD 0 0, cs.getD 1 0, cs.getD 2 0, cs.getD 3 0, cs.getD 4 0, cs.getD 5 0,
     cs.getD 6 0, cs.getD 7 0, cs.getD 8 0, cs.getD 9 0, cs.getD 10 0]

/-- The slots as one 88-bit vector (R45): slot `i` in bits `[8i+7 : 8i]`. -/
def packSlots (v : Slots) : BitVec 88 :=
  slotAt v 10 ++ slotAt v 9 ++ slotAt v 8 ++ slotAt v 7 ++ slotAt v 6 ++ slotAt v 5 ++
    slotAt v 4 ++ slotAt v 3 ++ slotAt v 2 ++ slotAt v 1 ++ slotAt v 0

/-- The slots of an 88-bit vector (R45). -/
def unpackSlots (w : BitVec 88) : Slots :=
  slotsOf ((List.range 11).map fun i => w.extractLsb' (8 * i) 8)

/-- The request with every field 0 (R72: "Every field a line does not set is 0"). -/
def zeroRequest : Request := { cmd := 0, valIn := 0, lenIn := 0, strIn := slotsOf [] }

/-- The string operand of DEC32 and DEC64 (R74): `str_in[0..n−1]` with `n = len_in`, for `n ≤ 11`. (The
numeric operand of R69 is `q.valIn.toNat`: `val_in` as an unsigned number, never sign-extended or
truncated.) -/
def stringOperand (q : Request) : List Byte := q.strIn.toList.take q.lenIn.toNat

/-- `digits_L(v)` (R13): `d[i] = (v / R^(L−1−i)) mod R`, most significant first. -/
def digits (radix len v : Nat) : List Nat :=
  (List.range len).map fun i => v / radix ^ (len - 1 - i) % radix

/-- `value(d)` (R13): the left-to-right fold `acc * R + d[i]`. -/
def digitsValue (radix : Nat) (ds : List Nat) : Nat := ds.foldl (fun acc d => acc * radix + d) 0

/-- Code-unit order of strings (R11): lexicographic, a proper beginning is smaller. -/
def stringLt : List Byte → List Byte → Bool
  | _, [] => false
  | [], _ :: _ => true
  | a :: as, b :: bs => a.toNat < b.toNat || (a == b && stringLt as bs)

/-- The string of a response (R61): slots `0..len_out−1`. -/
def responseText (r : Response) : List Byte := r.strOut.toList.take r.lenOut.toNat

end Sys2Proof.Machine
end

