-- ==== Sys2Proof/Machine/Flags.lean ====
section
/-! DEFINITION. The block has no flags (spec/10_state.md R24): the outcome of an operation is the
`status` field of its response. This file holds the status codes (spec/30_encoding.md R70), the
response every operation starts from (R62), the successful responses (R76), and `raise` for each error
with its payload (R71, spec/60_exceptions.md R204). -/

namespace Sys2Proof.Machine

/-- The status codes (R70). -/
def statusCode : Status → BitVec 4
  | .ok => 0
  | .invalidCharacter => 1
  | .lengthExceeded => 2
  | .rangeOverflow => 3
  | .emptyInput => 4
  | .encodeRange => 5
  | .digitRange => 6
  | .notFound => 7
  | .illegalOp => 8

/-- The codes 9..15 are reserved (R70). -/
def statusReserved (c : BitVec 4) : Bool := 9 ≤ c.toNat

/-- "Every response field starts at 0" (R12, R62). -/
def zeroResponse : Response where
  status    := 0
  valOut    := 0
  lenOut    := 0
  strOut    := slotsOf []
  errPos    := 0
  errChar   := 0
  errLen    := 0
  errMax    := 0
  errVal    := 0
  errMaxval := 0

/-- `finish OK` with `val_out` written (R76: DEC32, DEC64, LUTC2V). -/
def finishValue (v : Nat) : Response :=
  { zeroResponse with status := statusCode .ok, valOut := BitVec.ofNat 64 v }

/-- `finish OK` with a string of `|cs|` code units written (R76: the encode operations). -/
def finishString (cs : List Byte) : Response :=
  { zeroResponse with
    status := statusCode .ok, lenOut := BitVec.ofNat 4 cs.length, strOut := slotsOf cs }

/-- `finish OK` of LUTV2C (R76): the character in `val_out` and in `str_out[0]`. -/
def finishCharacter (c : Byte) : Response :=
  { zeroResponse with
    status := statusCode .ok, valOut := c.setWidth 64, lenOut := 1, strOut := slotsOf [c] }

/-- `finish OK` of POL32 and POL64 (R76): `MAX_W` and `L_W`. -/
def finishPolicy (p : Policy) : Response :=
  { zeroResponse with
    status := statusCode .ok, valOut := BitVec.ofNat 64 p.maxValue, lenOut := BitVec.ofNat 4 p.maxLen }

/-- `raise INVALID_CHARACTER(err_pos, err_char)` (R71, R157). -/
def raiseInvalidCharacter (pos : Nat) (c : Byte) : Response :=
  { zeroResponse with
    status := statusCode .invalidCharacter, errPos := BitVec.ofNat 4 pos, errChar := c }

/-- `raise LENGTH_EXCEEDED(err_len, err_max)` (R71, R155). -/
def raiseLengthExceeded (p : Policy) (n : Nat) : Response :=
  { zeroResponse with
    status := statusCode .lengthExceeded, errLen := BitVec.ofNat 32 n, errMax := BitVec.ofNat 8 p.maxLen }

/-- `raise RANGE_OVERFLOW(err_val, err_maxval)` (R71, R159). -/
def raiseRangeOverflow (p : Policy) (acc : Nat) : Response :=
  { zeroResponse with
    status := statusCode .rangeOverflow, errVal := BitVec.ofNat 72 acc,
    errMaxval := BitVec.ofNat 64 p.maxValue }

/-- `raise EMPTY_INPUT()` (R71, R156). -/
def raiseEmptyInput : Response := { zeroResponse with status := statusCode .emptyInput }

/-- `raise ENCODE_RANGE(err_val, err_maxval)` (R71, R132). -/
def raiseEncodeRange (p : Policy) (v : Nat) : Response :=
  { zeroResponse with
    status := statusCode .encodeRange, errVal := BitVec.ofNat 72 v,
    errMaxval := BitVec.ofNat 64 p.maxValue }

/-- `raise DIGIT_RANGE(err_val, err_max)` (R71, R102). -/
def raiseDigitRange (radix v : Nat) : Response :=
  { zeroResponse with
    status := statusCode .digitRange, errVal := BitVec.ofNat 72 v, errMax := BitVec.ofNat 8 radix }

/-- `raise NOT_FOUND(err_val)` (R71, R103). -/
def raiseNotFound (v : Nat) : Response :=
  { zeroResponse with status := statusCode .notFound, errVal := BitVec.ofNat 72 v }

/-- The `ILLEGAL_OP` response: every other field 0 (R206). -/
def raiseIllegalOp : Response := { zeroResponse with status := statusCode .illegalOp }

end Sys2Proof.Machine
end

