-- ==== Sys2Proof/Machine/Ops.lean ====
section
/-! DEFINITION. The shared operations: the alphabet unit a request is answered with (spec/00_scope.md
R5, spec/10_state.md R28), reading the two ROMs (spec/20_memory.md R41, R42), and the transaction that
accepts one request and answers it with one response (spec/00_scope.md R8,
spec/70_reset_and_hazards.md R245). An error is a response like any other (spec/60_exceptions.md R204):
taking one is `transact` with a `raise…` of Flags.lean, and nothing returns from one (R208). -/

namespace Sys2Proof.Machine

/-- The profile of a state, if it is an admitted one (R5). -/
def State.profile (s : State) : Option Profile :=
  match s.block with
  | .admitted l => some l.profile
  | .other _ => none

/-- The unit a request is answered with (R100), or the refusal of R5 (a profile other than R64 and R66), of
R224 (an alphabet that breaks R28), or of a ROM_C2V that is not the inverse R26 fixes (log 3). -/
def State.lut (s : State) : Except Refusal Lut :=
  match s.block with
  | .other _ => .error .profileNotAdmitted
  | .admitted l =>
    if alphabetValid l.radix l.romV2C then
      if l.inverseValid then .ok l else .error .inverseInvalid
    else .error .alphabetInvalid

/-- `RomV2C(d)` (R12, R41); a digit without an entry faults. -/
def readV2C (l : Lut) (d : Nat) : Except Fault Byte :=
  match cellAt l.romV2C d with
  | some c => .ok c
  | none => .error (.romV2CNoEntry d)

/-- `RomC2V(c)` (R12, R42): total on code units; one whole entry of `1 + DIGIT_W` bits (R48). -/
def readC2V (l : Lut) (c : Byte) : C2VEntry l.profile.digitW :=
  (cellAt l.romC2V c.toNat).getD C2VEntry.absent

/-- `RomV2C` of each digit in turn (R133). -/
def readDigits (l : Lut) : List Nat → Except Fault (List Byte)
  | [] => .ok []
  | d :: ds =>
    match readV2C l d, readDigits l ds with
    | .ok c, .ok cs => .ok (c :: cs)
    | .error e, _ => .error e
    | .ok _, .error e => .error e

/-- The state after the request at the head is consumed and its response is in flight on its port
(R204, R245), 0 cycles old (R249): nothing else changes but the count of requests accepted. -/
def State.respond (s : State) (port : Nat) (r : Response) (rest : List PortRequest) : State :=
  { s with
    requests := rest
    inFlight := s.inFlight ++ [{ port := port, rsp := r, ticket := s.accepted, age := 0 }]
    accepted := s.accepted + 1 }

/-- One transaction (R8): the request at the head of the queue is answered by `f`, a function of the
alphabet unit and the request alone (R207). -/
def transact (s : State) (f : Lut → Request → Except Fault Response) : Outcome :=
  match s.requests with
  | [] => .refused .noRequest
  | q :: rest =>
    match s.lut with
    | .error e => .refused e
    | .ok l =>
      match f l q.req with
      | .error e => .fault e
      | .ok r => .next (s.respond q.port r rest)

/-- The answer to a command that decodes to no operation (R206). -/
def execIllegal (s : State) : Outcome := transact s fun _ _ => .ok raiseIllegalOp

end Sys2Proof.Machine
end

