-- ==== Sys2Proof/Machine/Decoder.lean ====
section
/-! DEFINITION. base64_radix_decoder (spec/43_decoder.md): DECODE_W, DEC32, DEC64. -/

namespace Sys2Proof.Machine

/-- Step 2 of DECODE_W (R157): from position `i` on, left to right, the digit of each code unit, or the
position and the code unit of the first one that is not in the alphabet. -/
def scanDigits (l : Lut) (i : Nat) : List Byte → Except (Nat × Byte) (List Nat)
  | [] => .ok []
  | c :: cs =>
    if (readC2V l c).found then
      match scanDigits l (i + 1) cs with
      | .ok ds => .ok ((readC2V l c).digit.toNat :: ds)
      | .error e => .error e
    else .error (i, c)

/-- DECODE_W (R151): length, empty input, characters, accumulation, range, in this order. The
accumulator is an exact natural number, as the 72-bit register of R158 never wraps. -/
def decodeString (p : Policy) (l : Lut) (q : Request) : Response :=
  let n := q.lenIn.toNat
  if p.maxLen < n then raiseLengthExceeded p n
  else if n = 0 then raiseEmptyInput
  else
    match scanDigits l 0 (stringOperand q) with
    | .error (pos, c) => raiseInvalidCharacter pos c
    | .ok ds =>
      let acc := digitsValue l.radix ds
      if p.maxValue < acc then raiseRangeOverflow p acc else finishValue acc

/-- DEC32 (R160). -/
def execDec32 (s : State) : Outcome := transact s fun l q => .ok (decodeString .w32 l q)

/-- DEC64 (R161). -/
def execDec64 (s : State) : Outcome := transact s fun l q => .ok (decodeString .w64 l q)

end Sys2Proof.Machine
end

