-- ==== Sys2Proof/Machine/Encoder.lean ====
section
/-! DEFINITION. base64_radix_encoder (spec/42_encoder.md): ENCP32, ENCP64, ENCU32, ENCU64. -/

namespace Sys2Proof.Machine

/-- Padded encode under a policy (R131-R134): the defensive range check, then `L_W` digits through
ROM_V2C. The 64-bit policy never fails the check, since `val_in` has 64 bits (R132). -/
def encodePadded (p : Policy) (l : Lut) (q : Request) : Except Fault Response :=
  let v := q.valIn.toNat
  if p.maxValue < v then .ok (raiseEncodeRange p v)
  else
    match readDigits l (digits l.radix p.maxLen v) with
    | .error e => .error e
    | .ok cs => .ok (finishString cs)

/-- Unpadded encode under a policy (R136, R137): `k` is the least index with a nonzero digit, or `L_W`
if there is none, and the digits from `k` on go through ROM_V2C. -/
def encodeUnpadded (p : Policy) (l : Lut) (q : Request) : Except Fault Response :=
  let v := q.valIn.toNat
  if p.maxValue < v then .ok (raiseEncodeRange p v)
  else
    let ds := digits l.radix p.maxLen v
    let k := ds.findIdx (· != 0)
    match readDigits l (ds.drop k) with
    | .error e => .error e
    | .ok cs => .ok (finishString cs)

/-- ENCP32 (R133). -/
def execEncp32 (s : State) : Outcome := transact s (encodePadded .w32)

/-- ENCP64 (R134). -/
def execEncp64 (s : State) : Outcome := transact s (encodePadded .w64)

/-- ENCU32 (R136). -/
def execEncu32 (s : State) : Outcome := transact s (encodeUnpadded .w32)

/-- ENCU64 (R137). -/
def execEncu64 (s : State) : Outcome := transact s (encodeUnpadded .w64)

end Sys2Proof.Machine
end

