-- ==== Sys2Proof/Machine/Lookup.lean ====
section
/-! DEFINITION. alphabet_lut's two operations (spec/40_alphabet_lut.md): LUTV2C and LUTC2V. -/

namespace Sys2Proof.Machine

/-- Digit to character (R102): values at and above `RADIX` are rejected, never truncated; below it the
low `DIGIT_W` bits address ROM_V2C. -/
def digitToCharacter (l : Lut) (q : Request) : Except Fault Response :=
  let d := q.valIn.toNat
  if l.radix ≤ d then .ok (raiseDigitRange l.radix d)
  else
    match readV2C l (d % 2 ^ l.profile.digitW) with
    | .error e => .error e
    | .ok c => .ok (finishCharacter c)

/-- Character to digit (R103): a code above 0xFF, or one not in the alphabet, is not found. -/
def characterToDigit (l : Lut) (q : Request) : Response :=
  let c := q.valIn.toNat
  if 0xFF < c then raiseNotFound c
  else
    let e := readC2V l (BitVec.ofNat 8 c)
    if e.found then finishValue e.digit.toNat else raiseNotFound c

/-- LUTV2C (R102). -/
def execLutv2c (s : State) : Outcome := transact s digitToCharacter

/-- LUTC2V (R103). -/
def execLutc2v (s : State) : Outcome := transact s fun l q => .ok (characterToDigit l q)

end Sys2Proof.Machine
end

