-- ==== Sys2Proof/Machine/PolicyQuery.lean ====
section
/-! DEFINITION. The policy queries (spec/41_policy.md): POL32 and POL64. -/

namespace Sys2Proof.Machine

/-- POL32 (R122). -/
def execPol32 (s : State) : Outcome := transact s fun _ _ => .ok (finishPolicy .w32)

/-- POL64 (R123). -/
def execPol64 (s : State) : Outcome := transact s fun _ _ => .ok (finishPolicy .w64)

end Sys2Proof.Machine
end

