-- ==== Sys2Proof/Machine/Dispatch.lean ====
section
/-! DEFINITION. One arm per operation of the opcode map (spec/30_encoding.md R66). -/

namespace Sys2Proof.Machine

def exec (i : Instr) (s : State) : Host.Outcome State Fault Refusal :=
  match i with
  | .encp32 => Sys2Proof.Machine.execEncp32 s
  | .encp64 => Sys2Proof.Machine.execEncp64 s
  | .encu32 => Sys2Proof.Machine.execEncu32 s
  | .encu64 => Sys2Proof.Machine.execEncu64 s
  | .dec32 => Sys2Proof.Machine.execDec32 s
  | .dec64 => Sys2Proof.Machine.execDec64 s
  | .lutv2c => Sys2Proof.Machine.execLutv2c s
  | .lutc2v => Sys2Proof.Machine.execLutc2v s
  | .pol32 => Sys2Proof.Machine.execPol32 s
  | .pol64 => Sys2Proof.Machine.execPol64 s

end Sys2Proof.Machine
end

