-- ==== Sys2Proof/Machine/Port.lean ====
section
/-! DEFINITION. The reset input and the two channels (spec/70_reset_and_hazards.md R241-R247, R249): the
derived signals, what the requesters and the platform drive, the response transfer, and a clock cycle. -/

namespace Sys2Proof.Machine

/-- `req_valid`: some requester presents a request (R247). -/
def State.reqValid (s : State) : Bool := !s.requests.isEmpty

/-- `req_ready`: 0 while `rst` is asserted (R241), else 1 (log 7). -/
def State.reqReady (s : State) : Bool := !s.rst

/-- The oldest response in flight on a port and the rest, if there is one (R246). -/
def oldestOn (port : Nat) : List InFlight → Option (InFlight × List InFlight)
  | [] => none
  | a :: as =>
    if a.port = port then some (a, as)
    else
      match oldestOn port as with
      | some (b, bs) => some (b, a :: bs)
      | none => none

/-- The latency of a response in flight is over (R249): `LAT` cycles have passed since its request was
accepted. -/
def InFlight.latencyOver (a : InFlight) : Bool := decide (Config.latency a.ticket ≤ a.age)

/-- `rsp_valid` of a port: the latency of the oldest response in flight on that port is over, and `rst` is
not asserted (R241, R247, R249). -/
def State.rspValid (s : State) (port : Nat) : Bool :=
  !s.rst && (oldestOn port s.inFlight).any fun a => a.1.latencyOver

/-- `rsp_ready` of a port (R247). -/
def State.rspReadyOn (s : State) (port : Nat) : Bool := s.rspReady.contains port

/-- A requester presents a request; it waits, unchanged, until it is accepted (R247). -/
def presentRequest (s : State) (q : PortRequest) : State := { s with requests := s.requests ++ [q] }

/-- A requester drives `rsp_ready` of its port (R247). -/
def driveRspReady (s : State) (port : Nat) (level : Bool) : State :=
  if level then
    if s.rspReady.contains port then s else { s with rspReady := port :: s.rspReady }
  else { s with rspReady := s.rspReady.filter (· != port) }

/-- The platform drives `rst` (R241). Asserting it drops every request accepted whose response has not
been delivered (R242); requests not yet accepted stay presented. -/
def driveRst (s : State) (level : Bool) : State :=
  if level then { s with rst := true, inFlight := [] } else { s with rst := false }

/-- A response transfer on a port: the oldest response in flight is delivered if `rsp_valid` and
`rsp_ready` are both 1 (R246, R247), and is held unchanged otherwise. A reserved status code faults
(93_implementation_defined.md I12). -/
def deliverOn (s : State) (port : Nat) : Outcome :=
  if s.rspValid port && s.rspReadyOn port then
    match oldestOn port s.inFlight with
    | none => .next s
    | some (a, rest) =>
      if statusReserved a.rsp.status then .fault (.reservedStatus a.rsp.status.toNat)
      else .next { s with inFlight := rest, delivered := s.delivered ++ [a.toPortResponse] }
  else .next s

/-- A response in flight, one cycle later (R249). -/
def InFlight.older (a : InFlight) : InFlight := { a with age := a.age + 1 }

/-- A clock cycle passes (R249): every response in flight is one cycle older. While `rst` is asserted
nothing is in flight (R242) and nothing changes. -/
def passCycle (s : State) : State :=
  if s.rst then s else { s with inFlight := s.inFlight.map InFlight.older }

/-- The port of the oldest response in flight whose port has `rsp_valid` and `rsp_ready` both 1. -/
def nextDeliverable (s : State) : Option Nat :=
  (s.inFlight.find? fun a => s.rspValid a.port && s.rspReadyOn a.port).map fun a => a.port

/-- The command word of the request a request transfer would accept: `req_valid` and `req_ready` both
1 (R247). -/
def fetchCommand (s : State) : Option (BitVec 8) :=
  if s.reqValid && s.reqReady then s.requests.head?.map fun q => q.req.cmd else none

/-- The state whose next request has the command word `cmd` (R63): the request at the head with its
command replaced, or a request with every other field 0 on port 0; `rst` deasserted, nothing scheduled
before it. -/
def withCommand (s : State) (cmd : BitVec 8) : State :=
  match s.requests with
  | [] => { s with rst := false, agenda := [],
                   requests := [{ port := 0, req := { zeroRequest with cmd := cmd } }] }
  | q :: rest => { s with rst := false, agenda := [],
                          requests := { q with req := { q.req with cmd := cmd } } :: rest }

end Sys2Proof.Machine
end

