-- ==== Sys2Proof/Machine/Transfer.lean ====
section
/-! DEFINITION. The request transfer, what the channels do with nothing scheduled, and one move
(spec/00_scope.md R8, R9; spec/70_reset_and_hazards.md R241, R247, R249). -/

namespace Sys2Proof.Machine

/-- A request transfer (R247): the command of the request at the head is decoded (R65) and the request
is answered, with `ILLEGAL_OP` where the command decodes to no operation (R206). While `rst` is
asserted, or with no request presented, nothing happens (R241). -/
def serve (s : State) : Outcome :=
  match fetchCommand s with
  | none => .next s
  | some c =>
    match decode c with
    | .ok i => exec i s
    | .error _ => execIllegal s

/-- What happens with nothing scheduled (log 6): a request transfer if a request is presented, else a
response transfer on a port with both signals 1, else a clock cycle passes. -/
def autonomous (s : State) : Outcome :=
  if s.reqValid && s.reqReady then serve s
  else
    match nextDeliverable s with
    | some port => deliverOn s port
    | none => .next (passCycle s)

/-- One move (R9). -/
def move (m : Move) (s : State) : Outcome :=
  match m with
  | .issue q => .next (presentRequest s q)
  | .driveRspReady port level => .next (driveRspReady s port level)
  | .driveRst level => .next (driveRst s level)
  | .serve => serve s
  | .deliver port => deliverOn s port
  | .cycle => .next (passCycle s)

end Sys2Proof.Machine
end

