-- ==== Sys2Proof/Machine/Step.lean ====
section
/-! DEFINITION. One step: the next move of the agenda, or, with nothing scheduled, what the channels
can transfer by themselves, or a clock cycle. -/

namespace Sys2Proof.Machine

/-- One step of the machine. -/
def step (s : State) : Host.Outcome State Fault Refusal :=
  match s.agenda with
  | [] => autonomous s
  | m :: rest => move m { s with agenda := rest }

/-- `s` with the command of `nbits` bits stored where `step` takes its next command from: the request at
the head of the queue. A command has 8 bits (R63). -/
def State.withFetchWord (s : State) (nbits w : Nat) : State :=
  withCommand s (BitVec.ofNat 8 (w % 2 ^ nbits))

end Sys2Proof.Machine
end

