-- ==== Sys2Proof/Machine/Assembler.lean ====
section
/-! DEFINITION. The assembler (spec/30_encoding.md R72): from one line of text to a line, and from a
line to the request it stands for. R73: there are no pseudo-instructions. A line is a list of
characters. Where R72 leaves the layout of a line open, log 9 says what is accepted. -/

namespace Sys2Proof.Machine

/-- The mnemonics (R66), for reading a line. -/
def mnemonicTable : List (List Char × Instr) :=
  [Instr.encp32, .encp64, .encu32, .encu64, .dec32, .dec64, .lutv2c, .lutc2v, .pol32, .pol64].map
    fun i => (i.mnemonic.toList, i)

/-- A printable character: 0x21..0x7E (R14). -/
def isPrintable (c : Char) : Bool := 0x21 ≤ c.toNat && c.toNat ≤ 0x7E

/-- Ends the word being read (kept reversed), if any. -/
def endWord (word : List Char) : List (List Char) := if word.isEmpty then [] else [word.reverse]

/-- The words of a line: separated by spaces outside quotes, up to a `;` outside quotes. The first
argument says whether the reader is inside a string literal. -/
def splitWords : Bool → List Char → List Char → List (List Char)
  | _, [], word => endWord word
  | true, '\\' :: c :: t, word => splitWords true t (c :: '\\' :: word)
  | true, '"' :: t, word => splitWords false t ('"' :: word)
  | true, c :: t, word => splitWords true t (c :: word)
  | false, '\'' :: c :: '\'' :: t, word => splitWords false t ('\'' :: c :: '\'' :: word)
  | false, ';' :: _, word => endWord word
  | false, '"' :: t, word => splitWords true t ('"' :: word)
  | false, ' ' :: t, word => endWord word ++ splitWords false t []
  | false, c :: t, word => splitWords false t (c :: word)

/-- The value of a hexadecimal digit. -/
def hexDigit (c : Char) : Option Nat :=
  if '0' ≤ c && c ≤ '9' then some (c.toNat - 0x30)
  else if 'a' ≤ c && c ≤ 'f' then some (c.toNat - 0x61 + 10)
  else if 'A' ≤ c && c ≤ 'F' then some (c.toNat - 0x41 + 10)
  else none

/-- Digits in a base, from the accumulator on. -/
def readBase (base : Nat) : List Char → Nat → Option Nat
  | [], acc => some acc
  | c :: t, acc =>
    match hexDigit c with
    | some d => if d < base then readBase base t (acc * base + d) else none
    | none => none

/-- `<num>`: "decimal or `0x` hexadecimal" (R72). -/
def readNumber : List Char → Option Nat
  | [] => none
  | '0' :: 'x' :: c :: t => readBase 16 (c :: t) 0
  | c :: t => readBase 10 (c :: t) 0

/-- The code units of a string literal after its opening quote (R72): "printable ASCII other than `"`
and `\`, or the escapes `\"`, `\\` and `\xHH` for any byte". -/
def readChars : List Char → Option (List Byte)
  | ['"'] => some []
  | '\\' :: '"' :: t => (readChars t).map (0x22 :: ·)
  | '\\' :: '\\' :: t => (readChars t).map (0x5C :: ·)
  | '\\' :: 'x' :: h :: l :: t =>
    match hexDigit h, hexDigit l, readChars t with
    | some a, some b, some cs => some (BitVec.ofNat 8 (16 * a + b) :: cs)
    | _, _, _ => none
  | c :: t =>
    if isPrintable c && c != '"' && c != '\\' then (readChars t).map (BitVec.ofNat 8 c.toNat :: ·)
    else none
  | [] => none

/-- A string literal. -/
def readString : List Char → Option (List Byte)
  | '"' :: t => readChars t
  | _ => none

/-- The rest of a word that begins with `key`. -/
def afterKey : List Char → List Char → Option (List Char)
  | [], w => some w
  | _ :: _, [] => none
  | k :: ks, c :: cs => if k = c then afterKey ks cs else none

/-- An optional leading word read by `reader`, and the words after it. -/
def optionalWord {α : Type} (reader : List Char → Option α) : List (List Char) → Option α × List (List Char)
  | [] => (none, [])
  | w :: ws =>
    match reader w with
    | some a => (some a, ws)
    | none => (none, w :: ws)

/-- `len=<num>` (R72). -/
def readLen (w : List Char) : Option Nat := (afterKey "len=".toList w).bind readNumber

/-- `val=<num>` (R72). -/
def readVal (w : List Char) : Option Nat := (afterKey "val=".toList w).bind readNumber

/-- `str="<chars>"` (R72). -/
def readStr (w : List Char) : Option (List Byte) := (afterKey "str=".toList w).bind readString

/-- `'<char>'` (R72): the code of a character. DESIGN CHOICE (log 9): R72 does not say what `<char>` admits;
exactly one unescaped printable character stands between the quotes (`'`, `"` and `\` among them), and an
escape or a space is refused. -/
def readCharLiteral : List Char → Option Nat
  | ['\'', c, '\''] => if isPrintable c then some c.toNat else none
  | _ => none

/-- The arguments of a mnemonic (R72). -/
def parseArguments (i : Instr) (ws : List (List Char)) : Option AsmLine :=
  if i.takesNumber then
    match ws with
    | [w] =>
      match readNumber w, readCharLiteral w with
      | some n, _ => some (.number i n)
      | none, some n => if i = .lutc2v then some (.number i n) else none
      | none, none => none
    | _ => none
  else if i.takesText then
    let (len, ws₁) := optionalWord readLen ws
    let (chars, ws₂) := optionalWord readString ws₁
    if ws₂.isEmpty then some (.text i len chars) else none
  else if ws.isEmpty then some (.bare i) else none

/-- The arguments of `RAW` (R72), in the order the rule writes them. -/
def parseRaw : List (List Char) → Option AsmLine
  | [] => none
  | w :: ws =>
    match readNumber w with
    | none => none
    | some cmd =>
      let (v, ws₁) := optionalWord readVal ws
      let (len, ws₂) := optionalWord readLen ws₁
      let (chars, ws₃) := optionalWord readStr ws₂
      if ws₃.isEmpty then some (.raw cmd v len chars) else none

/-- One line of text (R72): none if it is no line of the assembler, `some none` if it holds no request
(it is blank or a comment). -/
def parseLine (text : List Char) : Option (Option AsmLine) :=
  match splitWords false text [] with
  | [] => some none
  | w :: ws =>
    if w = "RAW".toList then (parseRaw ws).map some
    else
      match mnemonicTable.find? (fun e => e.1 == w) with
      | some e => (parseArguments e.2 ws).map some
      | none => none

/-- `len_in` of a line (R72): "Without `len=`, `len_in` is the number of code units in the literal. With
`len=`, `len_in` is the number given". A line with neither leaves it 0. -/
def lineLength (len : Option Nat) (chars : Option (List Byte)) : BitVec 32 :=
  BitVec.ofNat 32 (len.getD (chars.getD []).length)

/-- The request of a line (R72): "Every field a line does not set is 0". -/
def lineRequest : AsmLine → Request
  | .number i v => { zeroRequest with cmd := encode i, valIn := BitVec.ofNat 64 v }
  | .text i len chars =>
    { zeroRequest with
      cmd := encode i, lenIn := lineLength len chars, strIn := slotsOf (chars.getD []) }
  | .bare i => { zeroRequest with cmd := encode i }
  | .raw cmd v len chars =>
    { cmd := BitVec.ofNat 8 cmd, valIn := BitVec.ofNat 64 (v.getD 0), lenIn := lineLength len chars,
      strIn := slotsOf (chars.getD []) }

/-- The request a line stands for; a line that is not well formed is refused (R72). -/
def assemble (line : AsmLine) : Option Request :=
  if line.wellFormed then some (lineRequest line) else none

end Sys2Proof.Machine
end

