-- ==== Sys2Proof/Safety.lean ====
section
/-! DEFINITION. What statements about the machine are made of: the alphabet unit a state answers with,
what a well-formed response is (spec/30_encoding.md R62, R71, R76), the invariant of the machine, and
when an outcome is safe (spec/60_exceptions.md R224). -/

namespace Sys2Proof.Machine

/-- The unit's ROM_V2C meets R28 and its ROM_C2V is the inverse (R26). -/
def Lut.Valid (l : Lut) : Prop :=
  alphabetValid l.radix l.romV2C = true ∧ l.romC2V = inverseImage l.profile.digitW l.romV2C

/-- Both ROMs of the block are in canonical form; a block without a unit has none. -/
def Block.wf : Block → Bool
  | .admitted l => Memory.wf l.romV2C && C2VMemory.wf l.romC2V
  | .other _ => true

/-- The request `q` is at the head of the queue, the requests `rest` behind it. -/
def State.Presents (s : State) (q : PortRequest) (rest : List PortRequest) : Prop :=
  s.requests = q :: rest

/-- The ROM pair holds the profile's contents (R21, R26, R30). -/
def State.RomsHoldProfile (s : State) : Prop :=
  ∃ p, s.block = .admitted (Lut.ofProfile p)

/-- ROM_V2C at an address, as a state holds it: nothing where there is no entry (R41) or no unit. -/
def State.v2cEntry (s : State) (d : Nat) : Option Byte :=
  match s.block with
  | .admitted l => cellAt l.romV2C d
  | .other _ => none

/-- ROM_C2V at an address, as a state holds it: the `found` bit and the digit (R42). -/
def State.c2vEntry (s : State) (c : Byte) : Option (Bool × Nat) :=
  match s.block with
  | .admitted l => some ((readC2V l c).found, (readC2V l c).digit.toNat)
  | .other _ => none

/-- A response has one of the nine statuses, only that status's payload (R71), and 0 in every other
field (R62, R76), with the bounds the causes give (R202). -/
def responseWf (radix : Nat) (r : Response) : Bool :=
  if r.status = statusCode .ok then
    (r == { zeroResponse with
        status := r.status, valOut := r.valOut, lenOut := r.lenOut, strOut := r.strOut }) &&
      r.lenOut.toNat ≤ 11 && (r.strOut.toList.drop r.lenOut.toNat).all (· == 0)
  else if r.status = statusCode .invalidCharacter then
    (r == { zeroResponse with status := r.status, errPos := r.errPos, errChar := r.errChar }) &&
      r.errPos.toNat ≤ 10
  else if r.status = statusCode .lengthExceeded then
    (r == { zeroResponse with status := r.status, errLen := r.errLen, errMax := r.errMax }) &&
      (r.errMax == 6 || r.errMax == 11) && r.errMax.toNat < r.errLen.toNat
  else if r.status = statusCode .rangeOverflow then
    (r == { zeroResponse with status := r.status, errVal := r.errVal, errMaxval := r.errMaxval }) &&
      (r.errMaxval == 0xFFFFFFFF || r.errMaxval == 0xFFFFFFFFFFFFFFFF) &&
      r.errMaxval.toNat < r.errVal.toNat
  else if r.status = statusCode .emptyInput then r == { zeroResponse with status := r.status }
  else if r.status = statusCode .encodeRange then
    (r == { zeroResponse with status := r.status, errVal := r.errVal, errMaxval := r.errMaxval }) &&
      r.errMaxval == 0xFFFFFFFF && r.errMaxval.toNat < r.errVal.toNat
  else if r.status = statusCode .digitRange then
    (r == { zeroResponse with status := r.status, errVal := r.errVal, errMax := r.errMax }) &&
      r.errMax.toNat == radix && radix ≤ r.errVal.toNat
  else if r.status = statusCode .notFound then
    r == { zeroResponse with status := r.status, errVal := r.errVal }
  else r == { zeroResponse with status := statusCode .illegalOp }

/-- `RADIX` of the block; 0 for a profile that is not admitted, where the machine refuses. -/
def Block.radix : Block → Nat
  | .admitted l => l.radix
  | .other _ => 0

/-- The invariant: the ROM pair holds the profile's contents, nothing is in flight while `rst` is
asserted (R242), no port is listed twice as ready, and every response in flight or delivered is well
formed. -/
def State.Inv (s : State) : Prop :=
  s.RomsHoldProfile ∧
  (s.rst = true → s.inFlight = []) ∧
  s.rspReady.Nodup ∧
  (∀ a ∈ s.inFlight, responseWf (s.block.radix) a.rsp = true) ∧
  (∀ a ∈ s.delivered, responseWf (s.block.radix) a.rsp = true)

/-- An outcome is safe if it is a next state: R224 has the machine stop only outside the rules. -/
def Safe : Outcome → Prop
  | .next _ => True
  | .fault _ => False
  | .refused _ => False

/-- The responses of a port, oldest first: those delivered, then those in flight (R246). -/
def State.answersOn (s : State) (port : Nat) : List Response :=
  ((s.delivered ++ s.inFlight.map InFlight.toPortResponse).filter fun a => a.port == port).map
    PortResponse.rsp

/-- The operations of a policy (R120: `w` selects it). -/
def encpOf : Policy → Instr
  | .w32 => .encp32
  | .w64 => .encp64

/-- Unpadded encode under a policy. -/
def encuOf : Policy → Instr
  | .w32 => .encu32
  | .w64 => .encu64

/-- Decode under a policy. -/
def decOf : Policy → Instr
  | .w32 => .dec32
  | .w64 => .dec64

/-- Slot `i` of `str_in` is in the alphabet. -/
def operandFound (l : Lut) (q : Request) (i : Nat) : Bool := (readC2V l (slotAt q.strIn i)).found

/-- The digit of slot `i` of `str_in`. -/
def operandDigit (l : Lut) (q : Request) (i : Nat) : Nat := (readC2V l (slotAt q.strIn i)).digit.toNat

/-- `value(s) = Σ_{i<n} d[i] · R^(n−1−i)` of the string operand (R13), `n = len_in`. -/
def operandValue (l : Lut) (q : Request) : Nat :=
  ∑ i ∈ Finset.range q.lenIn.toNat, operandDigit l q i * l.radix ^ (q.lenIn.toNat - 1 - i)

/-- Two requests agree on every field the operation reads besides `cmd` (R75). -/
def agreeOnReadFields (a b : Request) : Instr → Prop
  | .encp32 | .encp64 | .encu32 | .encu64 | .lutv2c | .lutc2v => a.valIn = b.valIn
  | .dec32 => a.lenIn = b.lenIn ∧
      (a.lenIn.toNat ≤ 6 → ∀ i, i < a.lenIn.toNat → slotAt a.strIn i = slotAt b.strIn i)
  | .dec64 => a.lenIn = b.lenIn ∧
      (a.lenIn.toNat ≤ 11 → ∀ i, i < a.lenIn.toNat → slotAt a.strIn i = slotAt b.strIn i)
  | .pol32 | .pol64 => True

/-- The statuses an operation may answer with (R202). -/
def statusesOf : Instr → List Status
  | .encp32 | .encu32 => [.ok, .encodeRange]
  | .encp64 | .encu64 | .pol32 | .pol64 => [.ok]
  | .dec32 | .dec64 => [.ok, .lengthExceeded, .emptyInput, .invalidCharacter, .rangeOverflow]
  | .lutv2c => [.ok, .digitRange]
  | .lutc2v => [.ok, .notFound]

end Sys2Proof.Machine
end

