-- ==== Sys2Proof/Certificates/Slice0/Obligations.lean ====
section
/-! DEFINITION. The statements for the provers. Each docstring says which rule of spec/ it formalises;
where a clause is the model's own choice, it names the log entry. -/

open Sys2Proof Sys2Proof.Machine

/-! ### Reset and the invariant -/

/-- R30, R240, R21, R26: right after reset ROM_V2C holds the default profile's 64 characters and no other
entry, ROM_C2V reads as the inverse at every code unit, `rst` is deasserted and nothing is in flight. That
reset selects R64, R5's default, is the model's choice (log 1). -/
def Obligations.ResetHoldsTheDefaultRoms : Prop :=
  State.reset.profile = some .r64 ∧
  (∀ d, d < 64 → State.reset.v2cEntry d = (Profile.alphabet .r64)[d]?) ∧
  (∀ d, 64 ≤ d → State.reset.v2cEntry d = none) ∧
  (∀ d c, (Profile.alphabet .r64)[d]? = some c → State.reset.c2vEntry c = some (true, d)) ∧
  (∀ c : Byte, c ∉ Profile.alphabet .r64 → State.reset.c2vEntry c = some (false, 0)) ∧
  State.reset.rst = false ∧ State.reset.inFlight = []

/-- The invariant holds right after reset. -/
def Obligations.ResetMeetsTheInvariant : Prop := State.reset.Inv

/-- Every step keeps the invariant: the ROM pair holds the profile's contents (R20, R30), nothing is in
flight while `rst` is asserted (R242), and every response in flight or delivered has one status, only
that status's payload and 0 everywhere else (R62, R71, R76, R202). -/
def Obligations.EveryStepKeepsTheInvariant : Prop :=
  ∀ s t : State, s.Inv → step s = .next t → t.Inv

/-- R224, R54: from a state that meets the invariant, whatever is requested and scheduled, a step answers a
next state: no fault and no refusal is reachable. -/
def Obligations.NoStopUnderTheInvariant : Prop :=
  ∀ s : State, s.Inv → ∃ t, step s = .next t

/-- R28: both profiles' alphabets meet the five invariants, written out. -/
def Obligations.BothAlphabetsMeetTheInvariants : Prop :=
  ∀ p : Profile,
    p.alphabet.length = p.radix ∧
    (∀ i, i + 1 < p.radix → (p.alphabet.getD i 0).toNat < (p.alphabet.getD (i + 1) 0).toNat) ∧
    (∀ c ∈ p.alphabet, 0x21 ≤ c.toNat ∧ c.toNat ≤ 0x7E) ∧
    p.alphabet.getD 0 0 = 0x2D ∧ p.alphabet.getD 1 0 = 0x2E ∧
    4294967295 < p.radix ^ 6 ∧ 18446744073709551615 < p.radix ^ 11

/-- R121: `L_W` is the least length that holds every value of the width, in both profiles. -/
def Obligations.PolicyLengthsAreLeast : Prop :=
  ∀ (p : Profile) (w : Policy) (n : Nat), w.maxValue < p.radix ^ n ↔ w.maxLen ≤ n

/-! ### Command words -/

/-- R65, R66: a command is legal exactly if it is one of the ten values, and each value is its row's
operation. -/
def Obligations.DecodeIsTheOpcodeMap : Prop :=
  ∀ (c : BitVec 8) (i : Instr), decode c = .ok i ↔
    (c = 0x00 ∧ i = .encp32) ∨ (c = 0x01 ∧ i = .encp64) ∨ (c = 0x02 ∧ i = .encu32) ∨
    (c = 0x03 ∧ i = .encu64) ∨ (c = 0x04 ∧ i = .dec32) ∨ (c = 0x05 ∧ i = .dec64) ∨
    (c = 0x06 ∧ i = .lutv2c) ∨ (c = 0x08 ∧ i = .lutc2v) ∨ (c = 0x0C ∧ i = .pol32) ∨
    (c = 0x0D ∧ i = .pol64)

/-- R63, R64: decoding an encoded operation gives it back, and a command word decodes to some operation
exactly if its fields are well formed. -/
def Obligations.EncodeThenDecode : Prop :=
  (∀ i : Instr, decode (encode i) = .ok i ∧ i.command.wellFormed = true) ∧
  (∀ c : BitVec 8, (∃ i, decode c = .ok i) ↔ (commandFields c).wellFormed = true)

/-- R66: words of the opcode map written out bit by bit, one of each family. -/
def Obligations.SampleCommandWords : Prop :=
  decode 0b00000000#8 = .ok .encp32 ∧ decode 0b00000011#8 = .ok .encu64 ∧
  decode 0b00000101#8 = .ok .dec64 ∧ decode 0b00000110#8 = .ok .lutv2c ∧
  decode 0b00001000#8 = .ok .lutc2v ∧ decode 0b00001101#8 = .ok .pol64

/-- R67: the kinds of illegal value. -/
def Obligations.IllegalCommandKinds : Prop :=
  ∀ c : BitVec 8,
    (decode c = .error .widthNotAllowed ↔ c = 0x07 ∨ c = 0x09) ∧
    (decode c = .error .reservedFunction ↔ c = 0x0A ∨ c = 0x0B ∨ c = 0x0E ∨ c = 0x0F) ∧
    (decode c = .error .reservedBits ↔ 0x10 ≤ c.toNat)

/-- R206: a request whose command decodes to no operation gets the ILLEGAL_OP response, every other field 0,
whatever its operands; it is consumed and nothing else changes. -/
def Obligations.IllegalCommandAnswersIllegalOp : Prop :=
  ∀ (s : State) (l : Lut) (q : PortRequest) (rest : List PortRequest) (e : Reject),
    s.rst = false → s.lut = .ok l → s.Presents q rest → decode q.req.cmd = .error e →
    serve s = .next (s.respond q.port { zeroResponse with status := 8 } rest)

/-- R65, R206, R203 item 1: with nothing scheduled, or a request transfer scheduled next, a step answers a
request whose command decodes to no operation with the ILLEGAL_OP response. The schedule, and that a step
with nothing scheduled makes the request transfer first, are the model's own (log 6), and so is that the
request is accepted at once (log 7). -/
def Obligations.StepAnswersAnIllegalCommand : Prop :=
  ∀ (s : State) (l : Lut) (q : PortRequest) (rest : List PortRequest) (e : Reject),
    s.rst = false → s.lut = .ok l → s.Presents q rest → decode q.req.cmd = .error e →
    (s.agenda = [] → step s = .next (s.respond q.port { zeroResponse with status := 8 } rest)) ∧
    (∀ ms, s.agenda = .serve :: ms →
      step s = .next (State.respond { s with agenda := ms } q.port { zeroResponse with status := 8 } rest))

/-- R8, R65: with nothing scheduled, or a request transfer scheduled next, `rst` deasserted and a request
presented, a step runs the operation its command decodes to. The schedule is the model's own (log 6), and so
is that the request is accepted at once (log 7). -/
def Obligations.StepRunsTheDecodedCommand : Prop :=
  ∀ (s : State) (q : PortRequest) (rest : List PortRequest) (i : Instr),
    s.rst = false → s.Presents q rest → decode q.req.cmd = .ok i →
    (s.agenda = [] → step s = exec i s) ∧
    (∀ ms, s.agenda = .serve :: ms → step s = exec i { s with agenda := ms })

/-- R63, R68: a command word stored by `withFetchWord`, which stands for a requester's request (log 10), is
the one the next step runs. That the step makes the request transfer, at once, is the model's own (log 6,
log 7). -/
def Obligations.StoredCommandRunsNext : Prop :=
  ∀ (s : State) (i : Instr),
    step (s.withFetchWord 8 (encode i).toNat) = exec i (s.withFetchWord 8 (encode i).toNat) ∧
    (s.withFetchWord 8 (encode i).toNat).lut = s.lut ∧
    ∃ q rest, (s.withFetchWord 8 (encode i).toNat).Presents q rest ∧ q.req.cmd = encode i

/-! ### alphabet_lut -/

/-- R41, R54: ROM_V2C has an entry at a digit exactly below `RADIX`; a read elsewhere faults. -/
def Obligations.RomV2CReadsBelowRadixOnly : Prop :=
  ∀ (s : State) (l : Lut) (d : Nat), s.lut = .ok l →
    (d < l.radix → ∃ c, readV2C l d = .ok c) ∧ (l.radix ≤ d → readV2C l d = .error (.romV2CNoEntry d))

/-- R101: digit order is code order. -/
def Obligations.DigitOrderIsCodeOrder : Prop :=
  ∀ (s : State) (l : Lut) (a b : Nat) (c d : Byte),
    s.lut = .ok l → readV2C l a = .ok c → readV2C l b = .ok d →
    (a < b ↔ c.toNat < d.toNat)

/-- R104: the two ROMs are inverse to each other. -/
def Obligations.RomsAreInverse : Prop :=
  ∀ (s : State) (l : Lut), s.lut = .ok l →
    (∀ d c, d < l.radix → readV2C l d = .ok c →
      (readC2V l c).found = true ∧ (readC2V l c).digit.toNat = d) ∧
    (∀ c, (readC2V l c).found = true →
      (readC2V l c).digit.toNat < l.radix ∧ readV2C l (readC2V l c).digit.toNat = .ok c) ∧
    (∀ c, (readC2V l c).found = false → (readC2V l c).digit = 0)

/-- R102: LUTV2C. -/
def Obligations.Lutv2cReadsOrRejectsADigit : Prop :=
  decode 0x06 = .ok .lutv2c ∧
  ∀ (s : State) (l : Lut) (q : PortRequest) (rest : List PortRequest),
    s.lut = .ok l → s.Presents q rest →
    (q.req.valIn.toNat < l.radix → ∃ c, cellAt l.romV2C q.req.valIn.toNat = some c ∧
      exec .lutv2c s = .next (s.respond q.port
        { zeroResponse with status := 0, valOut := c.setWidth 64, lenOut := 1, strOut := slotsOf [c] } rest)) ∧
    (l.radix ≤ q.req.valIn.toNat →
      exec .lutv2c s = .next (s.respond q.port
        { zeroResponse with
          status := 6, errVal := q.req.valIn.setWidth 72, errMax := BitVec.ofNat 8 l.radix } rest))

/-- R103: LUTC2V. -/
def Obligations.Lutc2vFindsOrMissesACharacter : Prop :=
  decode 0x08 = .ok .lutc2v ∧
  ∀ (s : State) (l : Lut) (q : PortRequest) (rest : List PortRequest),
    s.lut = .ok l → s.Presents q rest →
    (q.req.valIn.toNat ≤ 0xFF → (readC2V l (q.req.valIn.setWidth 8)).found = true →
      exec .lutc2v s = .next (s.respond q.port
        { zeroResponse with
          status := 0, valOut := (readC2V l (q.req.valIn.setWidth 8)).digit.setWidth 64 } rest)) ∧
    (q.req.valIn.toNat ≤ 0xFF → (readC2V l (q.req.valIn.setWidth 8)).found = false →
      exec .lutc2v s = .next (s.respond q.port
        { zeroResponse with status := 7, errVal := q.req.valIn.setWidth 72 } rest)) ∧
    (0xFF < q.req.valIn.toNat →
      exec .lutc2v s = .next (s.respond q.port
        { zeroResponse with status := 7, errVal := q.req.valIn.setWidth 72 } rest))

/-! ### Policies -/

/-- R122, R123: POL32 and POL64 answer their policy's constants, whatever the operands. -/
def Obligations.PolicyQueriesAnswerConstants : Prop :=
  decode 0x0C = .ok .pol32 ∧ decode 0x0D = .ok .pol64 ∧
  ∀ (s : State) (l : Lut) (q : PortRequest) (rest : List PortRequest),
    s.lut = .ok l → s.Presents q rest →
    exec .pol32 s = .next (s.respond q.port
      { zeroResponse with status := 0, valOut := 0xFFFFFFFF, lenOut := 6 } rest) ∧
    exec .pol64 s = .next (s.respond q.port
      { zeroResponse with status := 0, valOut := 0xFFFFFFFFFFFFFFFF, lenOut := 11 } rest)

/-! ### Encoder -/

/-- R131: the digits of a value that fits are below the radix and sum up to the value; for radix 64 digit
`i` is six bits of the value, and the top digit is `v[63:60]` or `v[31:30]`. -/
def Obligations.DigitExpansionIsExact : Prop :=
  (∀ (p : Profile) (w : Policy) (v : Nat), v ≤ w.maxValue →
    (∀ i, i < w.maxLen →
      (digits p.radix w.maxLen v).getD i 0 = v / p.radix ^ (w.maxLen - 1 - i) % p.radix ∧
      (digits p.radix w.maxLen v).getD i 0 < p.radix) ∧
    v = ∑ i ∈ Finset.range w.maxLen,
      (digits p.radix w.maxLen v).getD i 0 * p.radix ^ (w.maxLen - 1 - i)) ∧
  (∀ (w : Policy) (v : BitVec 64) (i : Nat), v.toNat ≤ w.maxValue → i < w.maxLen →
    (digits 64 w.maxLen v.toNat).getD i 0 = (v.extractLsb' (6 * (w.maxLen - 1 - i)) 6).toNat) ∧
  (∀ v : BitVec 64, (digits 64 11 v.toNat).getD 0 0 = (v.extractLsb' 60 4).toNat) ∧
  (∀ v : BitVec 64, v.toNat ≤ 0xFFFFFFFF →
    (digits 64 6 v.toNat).getD 0 0 = (v.extractLsb' 30 2).toNat)

/-- R133, R132: ENCP32. -/
def Obligations.Encp32WritesSixDigitsOrRejects : Prop :=
  decode 0x00 = .ok .encp32 ∧
  ∀ (s : State) (l : Lut) (q : PortRequest) (rest : List PortRequest),
    s.lut = .ok l → s.Presents q rest →
    (q.req.valIn.toNat ≤ 0xFFFFFFFF → ∃ str : Slots,
      exec .encp32 s = .next (s.respond q.port
        { zeroResponse with status := 0, lenOut := 6, strOut := str } rest) ∧
      (∀ i, i < 6 →
        cellAt l.romV2C (q.req.valIn.toNat / l.radix ^ (5 - i) % l.radix) = some (slotAt str i)) ∧
      (∀ i, 6 ≤ i → i < 11 → slotAt str i = 0)) ∧
    (0xFFFFFFFF < q.req.valIn.toNat →
      exec .encp32 s = .next (s.respond q.port
        { zeroResponse with
          status := 5, errVal := q.req.valIn.setWidth 72, errMaxval := 0xFFFFFFFF } rest))

/-- R134: ENCP64, which never fails. -/
def Obligations.Encp64WritesElevenDigits : Prop :=
  decode 0x01 = .ok .encp64 ∧
  ∀ (s : State) (l : Lut) (q : PortRequest) (rest : List PortRequest),
    s.lut = .ok l → s.Presents q rest → ∃ str : Slots,
    exec .encp64 s = .next (s.respond q.port
      { zeroResponse with status := 0, lenOut := 11, strOut := str } rest) ∧
    (∀ i, i < 11 →
      cellAt l.romV2C (q.req.valIn.toNat / l.radix ^ (10 - i) % l.radix) = some (slotAt str i))

/-- R136, R132: ENCU32. `k` is the least index with a nonzero digit, 6 if there is none. -/
def Obligations.Encu32StripsLeadingZeroDigits : Prop :=
  decode 0x02 = .ok .encu32 ∧
  ∀ (s : State) (l : Lut) (q : PortRequest) (rest : List PortRequest),
    s.lut = .ok l → s.Presents q rest →
    (q.req.valIn.toNat ≤ 0xFFFFFFFF → ∃ (str : Slots) (k : Nat), k ≤ 6 ∧
      (∀ i, i < k → q.req.valIn.toNat / l.radix ^ (5 - i) % l.radix = 0) ∧
      (k < 6 → q.req.valIn.toNat / l.radix ^ (5 - k) % l.radix ≠ 0) ∧
      exec .encu32 s = .next (s.respond q.port
        { zeroResponse with status := 0, lenOut := BitVec.ofNat 4 (6 - k), strOut := str } rest) ∧
      (∀ j, j < 6 - k →
        cellAt l.romV2C (q.req.valIn.toNat / l.radix ^ (5 - (k + j)) % l.radix) = some (slotAt str j)) ∧
      (∀ j, 6 - k ≤ j → j < 11 → slotAt str j = 0)) ∧
    (0xFFFFFFFF < q.req.valIn.toNat →
      exec .encu32 s = .next (s.respond q.port
        { zeroResponse with
          status := 5, errVal := q.req.valIn.setWidth 72, errMaxval := 0xFFFFFFFF } rest))

/-- R137: ENCU64, which never fails. -/
def Obligations.Encu64StripsLeadingZeroDigits : Prop :=
  decode 0x03 = .ok .encu64 ∧
  ∀ (s : State) (l : Lut) (q : PortRequest) (rest : List PortRequest),
    s.lut = .ok l → s.Presents q rest → ∃ (str : Slots) (k : Nat), k ≤ 11 ∧
    (∀ i, i < k → q.req.valIn.toNat / l.radix ^ (10 - i) % l.radix = 0) ∧
    (k < 11 → q.req.valIn.toNat / l.radix ^ (10 - k) % l.radix ≠ 0) ∧
    exec .encu64 s = .next (s.respond q.port
      { zeroResponse with status := 0, lenOut := BitVec.ofNat 4 (11 - k), strOut := str } rest) ∧
    (∀ j, j < 11 - k →
      cellAt l.romV2C (q.req.valIn.toNat / l.radix ^ (10 - (k + j)) % l.radix) = some (slotAt str j)) ∧
    (∀ j, 11 - k ≤ j → j < 11 → slotAt str j = 0)

/-- R135 item 2: the padded string of an accepted value, given back to the decoder of the same width,
decodes to the value. -/
def Obligations.PaddedRoundTrip : Prop :=
  ∀ (w : Policy) (s : State) (l : Lut) (q : PortRequest) (rest : List PortRequest),
    s.lut = .ok l → s.Presents q rest → q.req.valIn.toNat ≤ w.maxValue →
    ∃ r, exec (encpOf w) s = .next (s.respond q.port r rest) ∧
      ∀ s' q' rest', s'.lut = .ok l → s'.Presents q' rest' →
        q'.req.lenIn = r.lenOut.setWidth 32 → q'.req.strIn = r.strOut →
        exec (decOf w) s' = .next (s'.respond q'.port
          { zeroResponse with status := 0, valOut := q.req.valIn } rest')

/-- R135 items 3 and 4: padded strings sort like their values, so distinct values give distinct
strings. -/
def Obligations.PaddedStringsSortLikeValues : Prop :=
  ∀ (w : Policy) (s : State) (l : Lut) (q : PortRequest) (rest : List PortRequest) (s' : State)
      (q' : PortRequest) (rest' : List PortRequest) (r r' : Response),
    s.lut = .ok l → s'.lut = .ok l →
    s.Presents q rest → s'.Presents q' rest' →
    q.req.valIn.toNat ≤ w.maxValue → q'.req.valIn.toNat ≤ w.maxValue →
    exec (encpOf w) s = .next (s.respond q.port r rest) →
    exec (encpOf w) s' = .next (s'.respond q'.port r' rest') →
    (q.req.valIn.toNat < q'.req.valIn.toNat ↔ stringLt (responseText r) (responseText r') = true) ∧
    (r = r' ↔ q.req.valIn = q'.req.valIn)

/-- R138 item 1: the unpadded string is the padded string with its leading `-` characters removed. -/
def Obligations.UnpaddedIsPaddedStripped : Prop :=
  ∀ (w : Policy) (s : State) (l : Lut) (q : PortRequest) (rest : List PortRequest) (r r' : Response),
    s.lut = .ok l → s.Presents q rest → q.req.valIn.toNat ≤ w.maxValue →
    exec (encpOf w) s = .next (s.respond q.port r rest) →
    exec (encuOf w) s = .next (s.respond q.port r' rest) →
    responseText r' = (responseText r).dropWhile (· == 0x2D)

/-- R138 item 2: the unpadded length is 0 for 0, else the least `n` with `v < R^n`. -/
def Obligations.UnpaddedLengthIsLeast : Prop :=
  ∀ (w : Policy) (s : State) (l : Lut) (q : PortRequest) (rest : List PortRequest),
    s.lut = .ok l → s.Presents q rest → q.req.valIn.toNat ≤ w.maxValue →
    ∃ r, exec (encuOf w) s = .next (s.respond q.port r rest) ∧ r.status = 0 ∧
      r.lenOut.toNat ≤ w.maxLen ∧ ∀ n, q.req.valIn.toNat < l.radix ^ n ↔ r.lenOut.toNat ≤ n

/-- R138 item 3: the unpadded string of a value from 1 on decodes to the value. -/
def Obligations.UnpaddedRoundTrip : Prop :=
  ∀ (w : Policy) (s : State) (l : Lut) (q : PortRequest) (rest : List PortRequest),
    s.lut = .ok l → s.Presents q rest → 1 ≤ q.req.valIn.toNat →
    q.req.valIn.toNat ≤ w.maxValue →
    ∃ r, exec (encuOf w) s = .next (s.respond q.port r rest) ∧
      ∀ s' q' rest', s'.lut = .ok l → s'.Presents q' rest' →
        q'.req.lenIn = r.lenOut.setWidth 32 → q'.req.strIn = r.strOut →
        exec (decOf w) s' = .next (s'.respond q'.port
          { zeroResponse with status := 0, valOut := q.req.valIn } rest')

/-- R138 item 4: the unpadded string of 0 is empty, the decoder rejects it as EMPTY_INPUT, and the zero
digit `-` in its place decodes to 0. The EMPTY_INPUT clause rests on the spec's decision D8
(92_eei_decisions.md). -/
def Obligations.UnpaddedZeroIsEmpty : Prop :=
  ∀ (w : Policy) (s : State) (l : Lut) (q : PortRequest) (rest : List PortRequest),
    s.lut = .ok l → s.Presents q rest → q.req.valIn = 0 →
    exec (encuOf w) s = .next (s.respond q.port { zeroResponse with status := 0 } rest) ∧
    ∀ s' q' rest', s'.lut = .ok l → s'.Presents q' rest' →
      (q'.req.lenIn = 0 → exec (decOf w) s' = .next (s'.respond q'.port
        { zeroResponse with status := 4 } rest')) ∧
      (q'.req.lenIn = 1 → slotAt q'.req.strIn 0 = 0x2D → exec (decOf w) s' = .next (s'.respond q'.port
        { zeroResponse with status := 0, valOut := 0 } rest'))

/-- R138 item 5: any string that decodes to a value from 1 on is the value's unpadded string with zero or
more `-` before it; so no shorter string decodes to it. -/
def Obligations.UnpaddedIsTheShortest : Prop :=
  ∀ (w : Policy) (s : State) (l : Lut) (q : PortRequest) (rest : List PortRequest) (r : Response)
      (s' : State) (q' : PortRequest) (rest' : List PortRequest) (r' : Response),
    s.lut = .ok l → s'.lut = .ok l → s.Presents q rest →
    s'.Presents q' rest' → 1 ≤ q.req.valIn.toNat → q.req.valIn.toNat ≤ w.maxValue →
    exec (encuOf w) s = .next (s.respond q.port r rest) →
    exec (decOf w) s' = .next (s'.respond q'.port r' rest') →
    r'.status = 0 → r'.valOut = q.req.valIn →
    ∃ k, stringOperand q'.req = List.replicate k 0x2D ++ responseText r

/-- R138 item 6: unpadded strings do not sort like their values: in R64, 63 gives `z` and 64 gives
`.-`, which is smaller. -/
def Obligations.UnpaddedStringsDoNotSort : Prop :=
  ∃ l r r', State.reset.lut = .ok l ∧
    encodeUnpadded .w32 l { zeroRequest with valIn := 63 } = .ok r ∧
    encodeUnpadded .w32 l { zeroRequest with valIn := 64 } = .ok r' ∧
    responseText r = [0x7A] ∧ responseText r' = [0x2E, 0x2D] ∧
    stringLt (responseText r') (responseText r) = true

/-! ### Decoder -/

/-- R160, R151, R155-R159: DEC32, every outcome in its order of precedence. The clause for the empty string
rests on the spec's decision D8 (92_eei_decisions.md). -/
def Obligations.Dec32AnswersTheFirstCause : Prop :=
  decode 0x04 = .ok .dec32 ∧
  ∀ (s : State) (l : Lut) (q : PortRequest) (rest : List PortRequest),
    s.lut = .ok l → s.Presents q rest →
    (6 < q.req.lenIn.toNat → exec .dec32 s = .next (s.respond q.port
      { zeroResponse with status := 2, errLen := q.req.lenIn, errMax := 6 } rest)) ∧
    (q.req.lenIn = 0 → exec .dec32 s = .next (s.respond q.port
      { zeroResponse with status := 4 } rest)) ∧
    (q.req.lenIn ≠ 0 → q.req.lenIn.toNat ≤ 6 →
      (∀ i, i < q.req.lenIn.toNat → (∀ j, j < i → operandFound l q.req j = true) →
        operandFound l q.req i = false → exec .dec32 s = .next (s.respond q.port
          { zeroResponse with
            status := 1, errPos := BitVec.ofNat 4 i, errChar := slotAt q.req.strIn i } rest)) ∧
      ((∀ i, i < q.req.lenIn.toNat → operandFound l q.req i = true) →
        operandValue l q.req < 2 ^ 72 ∧
        (operandValue l q.req ≤ 0xFFFFFFFF → exec .dec32 s = .next (s.respond q.port
          { zeroResponse with status := 0, valOut := BitVec.ofNat 64 (operandValue l q.req) } rest)) ∧
        (0xFFFFFFFF < operandValue l q.req → exec .dec32 s = .next (s.respond q.port
          { zeroResponse with
            status := 3, errVal := BitVec.ofNat 72 (operandValue l q.req),
            errMaxval := 0xFFFFFFFF } rest))))

/-- R161, R151, R155-R159: DEC64, every outcome in its order of precedence. The clause for the empty string
rests on the spec's decision D8 (92_eei_decisions.md). -/
def Obligations.Dec64AnswersTheFirstCause : Prop :=
  decode 0x05 = .ok .dec64 ∧
  ∀ (s : State) (l : Lut) (q : PortRequest) (rest : List PortRequest),
    s.lut = .ok l → s.Presents q rest →
    (11 < q.req.lenIn.toNat → exec .dec64 s = .next (s.respond q.port
      { zeroResponse with status := 2, errLen := q.req.lenIn, errMax := 11 } rest)) ∧
    (q.req.lenIn = 0 → exec .dec64 s = .next (s.respond q.port
      { zeroResponse with status := 4 } rest)) ∧
    (q.req.lenIn ≠ 0 → q.req.lenIn.toNat ≤ 11 →
      (∀ i, i < q.req.lenIn.toNat → (∀ j, j < i → operandFound l q.req j = true) →
        operandFound l q.req i = false → exec .dec64 s = .next (s.respond q.port
          { zeroResponse with
            status := 1, errPos := BitVec.ofNat 4 i, errChar := slotAt q.req.strIn i } rest)) ∧
      ((∀ i, i < q.req.lenIn.toNat → operandFound l q.req i = true) →
        operandValue l q.req < 2 ^ 72 ∧
        (operandValue l q.req ≤ 0xFFFFFFFFFFFFFFFF → exec .dec64 s = .next (s.respond q.port
          { zeroResponse with status := 0, valOut := BitVec.ofNat 64 (operandValue l q.req) } rest)) ∧
        (0xFFFFFFFFFFFFFFFF < operandValue l q.req → exec .dec64 s = .next (s.respond q.port
          { zeroResponse with
            status := 3, errVal := BitVec.ofNat 72 (operandValue l q.req),
            errMaxval := 0xFFFFFFFFFFFFFFFF } rest))))

/-- R158: the accumulator of an accepted length never exceeds `R^n − 1`, and stays below
2^67, so its 72 bits never wrap. -/
def Obligations.AccumulatorNeverWraps : Prop :=
  ∀ (w : Policy) (s : State) (l : Lut) (q : Request), s.lut = .ok l → q.lenIn.toNat ≤ w.maxLen →
    (∀ i, i < q.lenIn.toNat → operandFound l q i = true) →
    operandValue l q < l.radix ^ q.lenIn.toNat ∧ operandValue l q < 2 ^ 67

/-- R162, R163, R164: DEC_W answers OK exactly for a nonempty string of at most `L_W` alphabet
characters whose value is at most `MAX_W`, and then with that value; every other answer has `val_out`,
`len_out` and `str_out` 0. That the empty string is not accepted is the spec's decision D8
(92_eei_decisions.md). -/
def Obligations.DecoderAcceptsExactly : Prop :=
  ∀ (w : Policy) (s : State) (l : Lut) (q : PortRequest) (rest : List PortRequest),
    s.lut = .ok l → s.Presents q rest →
    ∃ r, exec (decOf w) s = .next (s.respond q.port r rest) ∧
      (r.status = 0 ↔ 1 ≤ q.req.lenIn.toNat ∧ q.req.lenIn.toNat ≤ w.maxLen ∧
        (∀ i, i < q.req.lenIn.toNat → operandFound l q.req i = true) ∧
        operandValue l q.req ≤ w.maxValue) ∧
      (r.status = 0 → r.valOut.toNat = operandValue l q.req) ∧
      (r.status ≠ 0 → r.valOut = 0 ∧ r.lenOut = 0 ∧ r.strOut = slotsOf [])

/-- R162, R157: a string of 1 to `L_W − 1` code units and the string with one `-` before it get the same
response, be it a value or RANGE_OVERFLOW; and if it is INVALID_CHARACTER, the same but for a position one
higher. -/
def Obligations.LeadingZeroDigitIsIgnored : Prop :=
  ∀ (w : Policy) (s : State) (l : Lut) (q : PortRequest) (rest : List PortRequest) (s' : State)
      (q' : PortRequest) (rest' : List PortRequest),
    s.lut = .ok l → s'.lut = .ok l → s.Presents q rest →
    s'.Presents q' rest' → 1 ≤ q.req.lenIn.toNat → q.req.lenIn.toNat + 1 ≤ w.maxLen →
    q'.req.lenIn.toNat = q.req.lenIn.toNat + 1 → slotAt q'.req.strIn 0 = 0x2D →
    (∀ i, i < q.req.lenIn.toNat → slotAt q'.req.strIn (i + 1) = slotAt q.req.strIn i) →
    ∃ r r', exec (decOf w) s = .next (s.respond q.port r rest) ∧
      exec (decOf w) s' = .next (s'.respond q'.port r' rest') ∧
      (r.status ≠ 1 → r' = r) ∧
      (r.status = 1 → r' = { r with errPos := r'.errPos } ∧ r'.errPos.toNat = r.errPos.toNat + 1)

/-- R165: DEC32 accepts a string exactly when DEC64 accepts it with at most 6 code units and a value of
at most `MAX32`; both then return the same value. -/
def Obligations.WidthsDecodeConsistently : Prop :=
  ∀ (s : State) (l : Lut) (q : PortRequest) (rest : List PortRequest),
    s.lut = .ok l → s.Presents q rest →
    ∃ r r', exec .dec32 s = .next (s.respond q.port r rest) ∧
      exec .dec64 s = .next (s.respond q.port r' rest) ∧
      (r.status = 0 ↔ r'.status = 0 ∧ q.req.lenIn.toNat ≤ 6 ∧ r'.valOut.toNat ≤ 0xFFFFFFFF) ∧
      (r.status = 0 → r'.status = 0 → r.valOut = r'.valOut)

/-! ### Responses, frames and independence -/

/-- R202, R70: each operation answers with one of its own statuses, and no other status is produced. -/
def Obligations.StatusesByOperation : Prop :=
  ∀ (i : Instr) (s : State) (l : Lut) (q : PortRequest) (rest : List PortRequest),
    s.lut = .ok l → s.Presents q rest →
    ∃ r, exec i s = .next (s.respond q.port r rest) ∧ r.status.toNat ≤ 8 ∧
      ∃ st ∈ statusesOf i, r.status = statusCode st

/-- The frame of every operation (R24, R43, R204): the request at the head is consumed and counted and one
response on its port is appended, 0 cycles old; the profile, every entry of both ROMs, `rst`, `rsp_ready`,
the responses in flight and delivered before and the schedule are unchanged. The count, and that it says
which free latency the response has, are the model's own (log 13). -/
def Obligations.OperationFrame : Prop :=
  ∀ (i : Instr) (s t : State), exec i s = .next t →
    (∃ q r, s.requests = q :: t.requests ∧
      t.inFlight = s.inFlight ++ [{ port := q.port, rsp := r, ticket := s.accepted, age := 0 }]) ∧
    t.accepted = s.accepted + 1 ∧
    t.profile = s.profile ∧ (∀ d, t.v2cEntry d = s.v2cEntry d) ∧ (∀ c, t.c2vEntry c = s.c2vEntry c) ∧
    t.block = s.block ∧ t.rst = s.rst ∧ t.rspReady = s.rspReady ∧
    t.delivered = s.delivered ∧ t.agenda = s.agenda

/-- R20, R7, R43: no step, whatever is requested or scheduled, changes the profile or an entry of a ROM. -/
def Obligations.NoStepWritesARom : Prop :=
  ∀ (s t : State),
    step s = .next t → t.profile = s.profile ∧ (∀ d, t.v2cEntry d = s.v2cEntry d) ∧
    (∀ c, t.c2vEntry c = s.c2vEntry c) ∧ t.block = s.block

/-- R207, R221: the response to a request depends on the request and `PROFILE` alone: two machines of one
profile, whose ROMs hold its contents and that present the same request, whatever else they hold (other
requests, responses in flight, the port), answer it with the same response, legal or not. -/
def Obligations.ResponseDependsOnTheRequestOnly : Prop :=
  ∀ (s s' : State) (q : PortRequest) (rest : List PortRequest) (q' : PortRequest)
    (rest' : List PortRequest),
    s.RomsHoldProfile → s'.RomsHoldProfile → s.profile = s'.profile → s.rst = false → s'.rst = false →
    s.Presents q rest → s'.Presents q' rest' → q.req = q'.req →
    ∃ r, serve s = .next (s.respond q.port r rest) ∧ serve s' = .next (s'.respond q'.port r rest')

/-- R75: the fields an operation does not read do not affect its response; an illegal command's response
does not depend on any field but `cmd`. -/
def Obligations.UnreadFieldsDoNotMatter : Prop :=
  (∀ (i : Instr) (s s' : State) (q : PortRequest) (rest : List PortRequest) (q' : PortRequest)
      (rest' : List PortRequest) (l : Lut),
    s.lut = .ok l → s'.lut = .ok l → s.Presents q rest →
    s'.Presents q' rest' → agreeOnReadFields q.req q'.req i →
    ∃ r, exec i s = .next (s.respond q.port r rest) ∧ exec i s' = .next (s'.respond q'.port r rest')) ∧
  (∀ (s s' : State) (q : PortRequest) (rest : List PortRequest) (q' : PortRequest)
      (rest' : List PortRequest) (l : Lut) (e : Reject),
    s.lut = .ok l → s'.lut = .ok l → s.rst = false → s'.rst = false →
    s.Presents q rest → s'.Presents q' rest' → q.req.cmd = q'.req.cmd → decode q.req.cmd = .error e →
    ∃ r, serve s = .next (s.respond q.port r rest) ∧ serve s' = .next (s'.respond q'.port r rest'))

/-- R5, R224: a request to a machine whose PROFILE is neither R64 nor R66 is refused, whichever operation it
asks for and also with an illegal command; and so is one to a machine whose ROM_V2C breaks R28 or whose
ROM_C2V is not the inverse of R26. That the check happens at each request, illegal ones included (log 11),
and the refusal of a wrong ROM_C2V (log 3) are the model's choice. -/
def Obligations.BadConfigurationsAreRefused : Prop :=
  ∀ (s : State) (q : PortRequest) (rest : List PortRequest) (why : Refusal), s.Presents q rest →
    ((∃ tag, s.block = .other tag ∧ why = .profileNotAdmitted) ∨
      (∃ l, s.block = .admitted l ∧
        (alphabetValid l.radix l.romV2C = false ∧ why = .alphabetInvalid ∨
          alphabetValid l.radix l.romV2C = true ∧ l.romC2V ≠ inverseImage l.profile.digitW l.romV2C ∧
            why = .inverseInvalid))) →
    (∀ i, exec i s = .refused why) ∧ execIllegal s = .refused why ∧ (s.rst = false → serve s = .refused why)

/-! ### Reset input and channels -/

/-- R241: while `rst` is asserted no request is accepted and no response is delivered. -/
def Obligations.AssertedResetBlocksTheChannels : Prop :=
  ∀ (s : State), s.rst = true → s.reqReady = false ∧ (∀ port, s.rspValid port = false) ∧
    serve s = .next s ∧ (∀ port, deliverOn s port = .next s) ∧ (s.agenda = [] → step s = .next s)

/-- R242: asserting `rst` drops every accepted request whose response has not been delivered, and nothing
else: requests not yet accepted stay presented, what was delivered stays delivered. -/
def Obligations.AssertingResetDropsWhatIsInFlight : Prop :=
  ∀ (s : State) (ms : List Move),
    s.agenda = .driveRst true :: ms → ∃ t, step s = .next t ∧ t.rst = true ∧ t.inFlight = [] ∧
    t.requests = s.requests ∧ t.delivered = s.delivered ∧ t.rspReady = s.rspReady ∧
    t.block = s.block ∧ t.accepted = s.accepted ∧ t.agenda = ms

/-- R243: from the end of a reset on, the block answers at once: the request presented gets the response
that any machine with the same unit, at any other time, gives it. That the very next step answers rests on
`req_ready` being 1 whenever `rst` is 0 (log 7) and on the model's schedule (log 6). -/
def Obligations.AnswersAreTheSameAfterReset : Prop :=
  ∀ (s : State) (l : Lut) (q : PortRequest) (rest : List PortRequest),
    s.agenda = [.driveRst true, .driveRst false] → s.lut = .ok l → s.Presents q rest →
    ∃ t r, core.run 2 s = .next t ∧ t.rst = false ∧ t.inFlight = [] ∧ t.agenda = [] ∧
      step t = .next (t.respond q.port r rest) ∧
      ∀ (s' : State) (q' : PortRequest) (rest' : List PortRequest),
        s'.lut = .ok l → s'.rst = false → s'.Presents q' rest' → q'.req = q.req →
        serve s' = .next (s'.respond q'.port r rest')

/-- R246: a step leaves the sequence of responses of every port (delivered and in flight, oldest first) as
it is; or it accepts the request at the head and appends one response to the sequence of that request's
port and of no other; or, with `rst` asserted, it drops what is in flight. Requests keep their order,
none is dropped or merged, and what is delivered is never changed. -/
def Obligations.PortsAnswerInOrder : Prop :=
  ∀ s t : State, step s = .next t → (∃ ds, t.delivered = s.delivered ++ ds) ∧
    ((∃ more, t.requests = s.requests ++ more ∧ ∀ port, t.answersOn port = s.answersOn port) ∨
      (∃ q r, s.requests = q :: t.requests ∧
        ∀ port, t.answersOn port = s.answersOn port ++ if q.port = port then [r] else []) ∨
      (t.rst = true ∧ t.requests = s.requests ∧ t.inFlight = [] ∧ t.delivered = s.delivered))

/-- R247, R246: a response transfer on a port delivers the oldest response in flight on it when both signals
are 1, and holds it unchanged when either is 0; a step with a response transfer scheduled next makes it (the
schedule is the model's own, log 6). No clause says when `rsp_valid` becomes 1, only that it is 0 while `rst`
is 1 (R241) and speaks of the oldest response on the port: `LAT` is open (R249). The fault on a reserved
status is the model's choice (log 11). -/
def Obligations.DeliveryFollowsTheHandshake : Prop :=
  (∀ (s : State) (port : Nat) (ms : List Move),
    s.agenda = .deliver port :: ms → step s = deliverOn { s with agenda := ms } port) ∧
  ∀ (s : State) (port : Nat) (before : List InFlight) (a : InFlight) (after : List InFlight),
    s.inFlight = before ++ a :: after → a.port = port → (∀ b ∈ before, b.port ≠ port) →
    (s.rspValid port = true → s.rspReadyOn port = true → statusReserved a.rsp.status = false →
      deliverOn s port =
        .next { s with
          inFlight := before ++ after, delivered := s.delivered ++ [a.toPortResponse] }) ∧
    (s.rspValid port = true → s.rspReadyOn port = true → statusReserved a.rsp.status = true →
      deliverOn s port = .fault (.reservedStatus a.rsp.status.toNat)) ∧
    (s.rspReadyOn port = false → deliverOn s port = .next s) ∧
    (s.rspValid port = false → deliverOn s port = .next s) ∧
    (s.rspValid port = true → s.rst = false)

/-- R249, R241: a request is accepted with a latency no rule fixes (a free value, log 13), and its response
is in flight from then on, 0 cycles old. The oldest response of a port becomes valid once its latency in
cycles has passed and not before: after `k` more cycles with `rst` deasserted `rsp_valid` is 1 exactly if its
latency is at most its age and `k` together; the cycles deliver, drop and accept nothing. A step with a cycle
scheduled next is one (log 6). -/
def Obligations.ResponseBecomesValidAfterItsLatency : Prop :=
  (∀ (i : Instr) (s t : State), exec i s = .next t → ∃ a, t.inFlight = s.inFlight ++ [a] ∧
    a.ticket = s.accepted ∧ a.age = 0) ∧
  (∀ (s : State) (ms : List Move),
    s.agenda = .cycle :: ms → step s = .next (passCycle { s with agenda := ms })) ∧
  ∀ (s : State) (port : Nat) (a : InFlight) (others : List InFlight) (k : Nat), s.rst = false →
    oldestOn port s.inFlight = some (a, others) →
    ((passCycle^[k] s).rspValid port = true ↔ Config.latency a.ticket ≤ a.age + k) ∧
    (passCycle^[k] s).inFlight.map InFlight.toPortResponse = s.inFlight.map InFlight.toPortResponse ∧
    { passCycle^[k] s with inFlight := s.inFlight } = s

/-- R247: a request waits unchanged until it is accepted, and the oldest response of a port is held
unchanged, only growing older (R249), until it is delivered (or dropped by a reset); once its latency is over
it stays over. -/
def Obligations.WaitingBundlesAreHeldStable : Prop :=
  ∀ (s t : State), step s = .next t →
    (∀ q rest, s.Presents q rest → (∃ more, t.requests = s.requests ++ more) ∨
      (s.rst = false ∧ t.requests = rest ∧
        ∃ r, t.inFlight = s.inFlight ++ [{ port := q.port, rsp := r, ticket := s.accepted, age := 0 }])) ∧
    (∀ port a others, oldestOn port s.inFlight = some (a, others) →
      (∃ a' others', oldestOn port t.inFlight = some (a', others') ∧
        a'.toPortResponse = a.toPortResponse ∧ (a.latencyOver = true → a'.latencyOver = true)) ∨
      (s.rspValid port = true ∧ s.rspReadyOn port = true ∧
        t.delivered = s.delivered ++ [a.toPortResponse]) ∨
      t.rst = true)

/-- The requesters' and the platform's moves change only what they drive, and a scheduled request transfer is
one (R241, R247); a clock cycle changes the ages of the responses in flight only (R249). The moves are the
model's own (log 6). -/
def Obligations.MovesDriveOnlyTheirSignals : Prop :=
  ∀ (s : State) (ms : List Move), (∀ q, s.agenda = .issue q :: ms →
      step s = .next { s with agenda := ms, requests := s.requests ++ [q] }) ∧
    (s.agenda = .driveRst false :: ms → step s = .next { s with agenda := ms, rst := false }) ∧
    (∀ port level, s.agenda = .driveRspReady port level :: ms → ∃ t, step s = .next t ∧
      (∀ p, t.rspReadyOn p = if p = port then level else s.rspReadyOn p) ∧
      { t with rspReady := s.rspReady } = { s with agenda := ms }) ∧
    (s.agenda = .serve :: ms → step s = serve { s with agenda := ms }) ∧
    (s.agenda = .cycle :: ms → ∃ t, step s = .next t ∧
      t.inFlight.map InFlight.toPortResponse = s.inFlight.map InFlight.toPortResponse ∧
      { t with inFlight := s.inFlight } = { s with agenda := ms })

/-- R248, R246: with `rst` deasserted, nothing scheduled and every requester ready, all requests presented
are answered and all responses delivered, on each port in the order of acceptance, one new response for each
of its requests, within a number of steps that every value of `LAT` (R249) keeps finite: what is left of the
latency of each response in flight and one transfer, and the latency of each request and two transfers. The
order of transfers and that requests are accepted at once are the model's own (log 6, log 7), and so is that
a step makes one transfer or is one cycle (log 13). -/
def Obligations.EveryRequestIsAnsweredAndDelivered : Prop :=
  ∀ s : State, s.Inv → s.agenda = [] → s.rst = false →
    (∀ q ∈ s.requests, q.port ∈ s.rspReady) → (∀ a ∈ s.inFlight, a.port ∈ s.rspReady) →
    ∃ k t, core.run k s = .next t ∧
      k ≤ (s.inFlight.map fun a => 1 + (Config.latency a.ticket - a.age)).sum +
        ∑ j ∈ Finset.range s.requests.length, (2 + Config.latency (s.accepted + j)) ∧
      t.requests = [] ∧ t.inFlight = [] ∧ (∃ ds, t.delivered = s.delivered ++ ds) ∧
      ∀ port, ∃ new, t.answersOn port = s.answersOn port ++ new ∧
        new.length = s.requests.countP fun q => q.port == port

/-! ### Packing and the assembler -/

/-- R45: slot `i` of the packed vector is bits `[8i+7 : 8i]`, and unpacking gives the slots back. -/
def Obligations.SlotPackingIsLittleEndian : Prop :=
  (∀ (v : Slots) i, i < 11 → (packSlots v).extractLsb' (8 * i) 8 = slotAt v i) ∧
  (∀ v : Slots, unpackSlots (packSlots v) = v) ∧ (∀ w : BitVec 88, packSlots (unpackSlots w) = w)

/-- R72: a DEC32, DEC64 or RAW line with a string of at most 11 code units and no `len=` is the request whose
string operand is this string, with `len_in` its number of code units; with `len=`, `len_in` is the number
given and the slots hold the string and 0x00 after it; a longer string is refused. -/
def Obligations.AssembledStringIsTheOperand : Prop :=
  ∀ (w : Policy) (cmd : Nat) (cs : List Byte), cmd < 256 →
    (cs.length ≤ 11 →
      (∃ q, assemble (.text (decOf w) none (some cs)) = some q ∧
        decode q.cmd = .ok (decOf w) ∧ q.valIn = 0 ∧ q.lenIn.toNat = cs.length ∧ stringOperand q = cs) ∧
      (∃ q, assemble (.raw cmd none none (some cs)) = some q ∧
        q.cmd.toNat = cmd ∧ q.valIn = 0 ∧ q.lenIn.toNat = cs.length ∧ stringOperand q = cs) ∧
      ∀ n, n < 2 ^ 32 →
        (∃ q, assemble (.text (decOf w) (some n) (some cs)) = some q ∧
          decode q.cmd = .ok (decOf w) ∧ q.valIn = 0 ∧ q.lenIn.toNat = n ∧ q.strIn = slotsOf cs) ∧
        (∃ q, assemble (.raw cmd none (some n) (some cs)) = some q ∧
          q.cmd.toNat = cmd ∧ q.valIn = 0 ∧ q.lenIn.toNat = n ∧ q.strIn = slotsOf cs)) ∧
    (11 < cs.length → ∀ len,
      assemble (.text (decOf w) len (some cs)) = none ∧ assemble (.raw cmd none len (some cs)) = none)
end

