-- ==== Sys2Proof/Laws/Assembler.lean ====
section
/-! SUPPORT. The length field of an assembler line (R72). -/

namespace Sys2Proof.Machine

/-- "Without `len=`, `len_in` is the number of code units in the literal" (R72). -/
theorem lineLength_of_literal {cs : List Byte} (h : cs.length ≤ 11) :
    (lineLength none (some cs)).toNat = cs.length := by
  simp [lineLength]; omega

/-- "With `len=`, `len_in` is the number given" (R72), whatever the literal. -/
theorem lineLength_of_len {n : Nat} (h : n < 2 ^ 32) (chars : Option (List Byte)) :
    (lineLength (some n) chars).toNat = n := by
  simp [lineLength]; omega

/-- "Every field a line does not set is 0" (R72). -/
@[simp] theorem lineLength_none : lineLength none none = 0 := rfl

end Sys2Proof.Machine
end

