-- ==== Sys2Proof/Laws/Operands.lean ====
section
/-! SUPPORT. Digit expansion and its value (R13), the character slots and the string operand. -/

namespace Sys2Proof.Machine

/-! digits -/
@[simp] theorem digits_length (radix len v : Nat) : (digits radix len v).length = len := by simp [digits]

theorem digits_getElem (radix len v i : Nat) (h : i < (digits radix len v).length) :
    (digits radix len v)[i] = v / radix ^ (len - 1 - i) % radix := by simp [digits]

theorem digits_lt {radix : Nat} (hr : 0 < radix) {len v d : Nat} (h : d ∈ digits radix len v) : d < radix := by
  simp only [digits, List.mem_map] at h
  obtain ⟨i, -, rfl⟩ := h
  exact Nat.mod_lt _ hr

/-- The most significant digit comes first; the rest are the digits of the value without it. -/
theorem digits_succ (radix len v : Nat) :
    digits radix (len + 1) v = v / radix ^ len % radix :: digits radix len v := by
  simp only [digits, List.range_succ_eq_map, List.map_cons, List.map_map, Nat.add_sub_cancel, Nat.sub_zero]
  congr 1
  apply List.map_congr_left
  intro i hi
  have : len - (i + 1) = len - 1 - i := by omega
  simp [this]

theorem digitsValue_foldl (radix : Nat) (ds : List Nat) (acc : Nat) :
    ds.foldl (fun acc d => acc * radix + d) acc = acc * radix ^ ds.length + digitsValue radix ds := by
  induction ds generalizing acc with
  | nil => simp [digitsValue]
  | cons d ds ih =>
    simp only [List.foldl_cons, List.length_cons, digitsValue]
    rw [ih, ih (0 * radix + d)]
    ring

@[simp] theorem digitsValue_nil (radix : Nat) : digitsValue radix [] = 0 := rfl

/-- A string's value by its first digit and the rest (R13). -/
theorem digitsValue_cons (radix d : Nat) (ds : List Nat) :
    digitsValue radix (d :: ds) = d * radix ^ ds.length + digitsValue radix ds := by
  rw [digitsValue, List.foldl_cons, digitsValue_foldl]; simp

theorem digitsValue_append (radix : Nat) (as bs : List Nat) :
    digitsValue radix (as ++ bs) = digitsValue radix as * radix ^ bs.length + digitsValue radix bs := by
  rw [digitsValue, List.foldl_append, digitsValue_foldl]; rfl

theorem digitsValue_lt {radix : Nat} {ds : List Nat} (h : ∀ d ∈ ds, d < radix) :
    digitsValue radix ds < radix ^ ds.length := by
  induction ds with
  | nil => simp
  | cons d ds ih =>
    rw [digitsValue_cons, List.length_cons, pow_succ']
    have h1 := h d (by simp)
    have h2 := ih fun x hx => h x (by simp [hx])
    have : (d + 1) * radix ^ ds.length ≤ radix * radix ^ ds.length := Nat.mul_le_mul_right _ h1
    rw [add_mul, one_mul] at this
    omega

/-- R13: the digits of `v` have the value `v`, up to a multiple of `R^L`. -/
theorem digitsValue_digits_mod (radix len v : Nat) :
    digitsValue radix (digits radix len v) = v % radix ^ len := by
  induction len with
  | zero => simp [digits, digitsValue, Nat.mod_one]
  | succ len ih =>
    rw [digits_succ, digitsValue_cons, ih, digits_length, pow_succ, Nat.mod_mul]
    ring

theorem digitsValue_digits {radix len v : Nat} (h : v < radix ^ len) :
    digitsValue radix (digits radix len v) = v := by
  rw [digitsValue_digits_mod, Nat.mod_eq_of_lt h]

/-- A digit string is the expansion of its value. -/
theorem digits_digitsValue {radix : Nat} {ds : List Nat} (h : ∀ d ∈ ds, d < radix) :
    digits radix ds.length (digitsValue radix ds) = ds := by
  induction ds with
  | nil => simp [digits]
  | cons d ds ih =>
    have h1 := h d (by simp)
    have h2 := digitsValue_lt fun x hx => h x (List.mem_cons_of_mem d hx)
    have hpos : 0 < radix ^ ds.length := by omega
    rw [List.length_cons, digits_succ, digitsValue_cons]
    congr 1
    · rw [mul_comm, Nat.mul_add_div hpos, Nat.div_eq_of_lt h2, add_zero, Nat.mod_eq_of_lt h1]
    · conv_rhs => rw [← ih fun x hx => h x (List.mem_cons_of_mem d hx)]
      simp only [digits]
      apply List.map_congr_left
      intro i hi
      have hi : i < ds.length := by simpa using hi
      have he : ds.length = (ds.length - 1 - i) + (i + 1) := by omega
      have hp : d * radix ^ ds.length = radix ^ (ds.length - 1 - i) * (d * radix ^ i * radix) := by
        conv_lhs => rw [he]
        rw [pow_add, pow_succ]; ring
      have hr : 0 < radix := by omega
      rw [hp, Nat.mul_add_div (Nat.pow_pos hr), Nat.mul_add_mod_self_right]

/-- R13: the fold is the sum of the digits times their place values. -/
theorem digitsValue_eq_sum (radix : Nat) (ds : List Nat) :
    digitsValue radix ds = ∑ i ∈ Finset.range ds.length, ds.getD i 0 * radix ^ (ds.length - 1 - i) := by
  induction ds with
  | nil => simp
  | cons d ds ih =>
    rw [digitsValue_cons, List.length_cons, Finset.sum_range_succ', ih, add_comm]
    congr 1
    apply Finset.sum_congr rfl
    intro i _
    rw [show ds.length + 1 - 1 - (i + 1) = ds.length - 1 - i by omega, List.getD_cons_succ]

/-! slots -/
@[simp] theorem slotAt_slotsOf (cs : List Byte) (i : Nat) :
    slotAt (slotsOf cs) i = if i < 11 then cs.getD i 0 else 0 := by
  split
  · interval_cases i <;> rfl
  · simp [slotAt, slotsOf, List.getD_eq_getElem?_getD, *]

theorem slotsOf_toList (cs : List Byte) :
    (slotsOf cs).toList = (List.range 11).map fun i => cs.getD i 0 := rfl

theorem take_slotsOf {cs : List Byte} (h : cs.length ≤ 11) : (slotsOf cs).toList.take cs.length = cs := by
  rw [slotsOf_toList]
  apply List.ext_getElem
  · simpa using h
  · intro i h1 h2
    simp [List.getD_eq_getElem?_getD, h2]

theorem stringOperand_length (q : Request) : (stringOperand q).length = min (q.lenIn.toNat) 11 := by
  simp [stringOperand]

theorem stringOperand_getElem (q : Request) (i : Nat) (h : i < (stringOperand q).length) :
    (stringOperand q)[i] = slotAt q.strIn i := by
  have : i < 11 := by rw [stringOperand_length] at h; omega
  simp [stringOperand, slotAt, List.getD_eq_getElem?_getD, this]

/-- A property of every code unit of the string operand is one of its slots. -/
theorem stringOperand_forall {q : Request} {p : Byte → Prop} (hn : q.lenIn.toNat ≤ 11) :
    (∀ c ∈ stringOperand q, p c) ↔ ∀ i, i < q.lenIn.toNat → p (slotAt q.strIn i) := by
  have hlen := stringOperand_length q
  constructor
  · intro h i hi
    have hi' : i < (stringOperand q).length := by omega
    rw [← stringOperand_getElem q i hi']; exact h _ (List.getElem_mem _)
  · intro h c hc
    obtain ⟨i, hi, rfl⟩ := List.getElem_of_mem hc
    rw [stringOperand_getElem]; exact h i (by omega)

/-- R158: 7-bit digits of at most 11 positions never leave 72 bits. -/
theorem digitsValue_lt_two_pow_72 {radix : Nat} {ds : List Nat} (h : ∀ d ∈ ds, d < 128)
    (hn : ds.length ≤ 11) (h66 : radix ≤ 66) :
    digitsValue radix ds < 2 ^ 72 := by
  have : ∀ ds : List Nat, (∀ d ∈ ds, d < 128) → digitsValue radix ds * 65 ≤ 127 * (66 ^ ds.length - 1) := by
    intro ds
    induction ds with
    | nil => simp
    | cons d ds ih =>
      intro h
      have h1 := h d (by simp)
      have h2 := ih fun x hx => h x (by simp [hx])
      rw [digitsValue_cons, List.length_cons, pow_succ]
      have h3 : radix ^ ds.length ≤ 66 ^ ds.length := Nat.pow_le_pow_left h66 _
      have h4 : d * radix ^ ds.length ≤ 127 * 66 ^ ds.length := Nat.mul_le_mul (by omega) h3
      have h5 : 0 < 66 ^ ds.length := by positivity
      omega
  have h1 := this ds h
  have h2 : 66 ^ ds.length ≤ 66 ^ 11 := Nat.pow_le_pow_right (by norm_num) hn
  have : (66:Nat)^11 = 103510234140112521216 := by norm_num
  have : (2:Nat)^72 = 4722366482869645213696 := by norm_num
  omega

end Sys2Proof.Machine
end

