-- ==== Sys2Proof/Laws/Rom.lean ====
section
/-! SUPPORT. The ROM pair: sparse memories, the alphabet checks of R28 item by item, canonical form. -/

namespace Sys2Proof.Machine

theorem strictlyRising_iff_pairwise (l : List Nat) : strictlyRising l = true ↔ l.Pairwise (· < ·) := by
  induction l with
  | nil => simp [strictlyRising]
  | cons a t ih =>
    cases t with
    | nil => simp [strictlyRising]
    | cons b t =>
      simp only [strictlyRising, Bool.and_eq_true, decide_eq_true_eq, ih, List.pairwise_cons]
      constructor
      · rintro ⟨hab, hb, ht⟩
        refine ⟨fun x hx => ?_, hb, ht⟩
        rcases List.mem_cons.1 hx with rfl | hx
        · exact hab
        · exact hab.trans (hb x hx)
      · rintro ⟨ha, hb, ht⟩
        exact ⟨ha b (by simp), hb, ht⟩

theorem cellAt_eq_some_of_mem {α : Type} {m : List (Nat × α)} (hm : (m.map Prod.fst).Nodup) {a : Nat} {v : α}
    (h : (a, v) ∈ m) : cellAt m a = some v := by
  induction m with
  | nil => simp at h
  | cons e m ih =>
    obtain ⟨k, w⟩ := e
    simp only [List.map_cons, List.nodup_cons] at hm
    rcases List.mem_cons.1 h with h | h
    · cases h; simp [cellAt]
    · have : k ≠ a := fun hk => hm.1 (hk ▸ List.mem_map_of_mem (f := Prod.fst) h)
      simp [cellAt, this, ih hm.2 h]

theorem mem_of_cellAt_eq_some {α : Type} {m : List (Nat × α)} {a : Nat} {v : α} (h : cellAt m a = some v) :
    (a, v) ∈ m := by
  induction m with
  | nil => simp [cellAt] at h
  | cons e m ih =>
    obtain ⟨k, w⟩ := e
    rw [cellAt] at h
    split at h
    · simp_all
    · exact List.mem_cons_of_mem _ (ih h)

theorem cellAt_eq_some_iff {α : Type} {m : List (Nat × α)} (hm : (m.map Prod.fst).Nodup) (a : Nat) (v : α) :
    cellAt m a = some v ↔ (a, v) ∈ m :=
  ⟨mem_of_cellAt_eq_some, cellAt_eq_some_of_mem hm⟩

theorem cellAt_isSome_iff {α : Type} (m : List (Nat × α)) (a : Nat) :
    (cellAt m a).isSome ↔ a ∈ m.map Prod.fst := by
  induction m with
  | nil => simp [cellAt]
  | cons e m ih =>
    obtain ⟨k, w⟩ := e
    rw [cellAt]
    split
    · simp_all
    · rename_i hk
      simp only [ih, List.map_cons, List.mem_cons]
      constructor
      · exact Or.inr
      · rintro (rfl | h)
        · exact absurd rfl hk
        · exact h

/-- The alphabet check, item by item. -/
theorem alphabetValid_iff (radix : Nat) (m : Memory) :
    alphabetValid radix m = true ↔
      m.map Prod.fst = List.range radix ∧ (m.map fun cell => cell.2.toNat).Pairwise (· < ·) ∧
      (∀ cell ∈ m, 0x21 ≤ cell.2.toNat ∧ cell.2.toNat ≤ 0x7E) ∧
      (cellAt m 0 = some 0x2D ∧ cellAt m 1 = some 0x2E) ∧
      (Policy.maxValue .w32 < radix ^ 6 ∧ Policy.maxValue .w64 < radix ^ 11) := by
  have h : radixLongEnough radix = true ↔
      Policy.maxValue .w32 < radix ^ 6 ∧ Policy.maxValue .w64 < radix ^ 11 := by
    rw [radixLongEnough, Bool.and_eq_true, decide_eq_true_iff, decide_eq_true_iff]; rfl
  simp only [alphabetValid, Bool.and_eq_true, h]
  simp [alphabetComplete, alphabetAscending, alphabetPrintable, alphabetStarts, strictlyRising_iff_pairwise,
    and_assoc]

theorem alphabetValid_profile (p : Profile) : alphabetValid p.radix (romImage p.alphabet) = true := by
  cases p <;> decide +kernel

/-- Both profiles' ROM contents are in canonical form. -/
theorem romImage_wf (p : Profile) :
    Memory.wf (romImage p.alphabet) = true ∧ C2VMemory.wf (inverseImage p.digitW (romImage p.alphabet)) = true := by
  cases p <;> decide +kernel

/-- R26: an inverse lists no entry that reads as an unlisted one. -/
theorem inverseImage_found {width : Nat} {m : Memory} {a : Nat} {e : C2VEntry width}
    (h : (a, e) ∈ inverseImage width m) :
    e.found = true := by
  simp only [inverseImage, List.mem_map, Prod.mk.injEq] at h
  obtain ⟨_, _, _, rfl⟩ := h
  rfl

/-- A valid alphabet's two ROMs are in canonical form. -/
theorem wf_of_alphabetValid {radix width : Nat} {m : Memory} (h : alphabetValid radix m = true) :
    Memory.wf m = true ∧ C2VMemory.wf (inverseImage width m) = true := by
  obtain ⟨h₁, h₂, -⟩ := (alphabetValid_iff radix m).1 h
  refine ⟨?_, ?_⟩
  · rw [Memory.wf, h₁, strictlyRising_iff_pairwise]; exact List.pairwise_lt_range
  · simp only [C2VMemory.wf, Bool.and_eq_true, List.all_eq_true, decide_eq_true_eq, bne_iff_ne]
    refine ⟨?_, fun e he => ⟨?_, fun hc => ?_⟩⟩
    · rw [strictlyRising_iff_pairwise]; simpa [inverseImage, Function.comp_def] using h₂
    · simp only [inverseImage, List.mem_map] at he
      obtain ⟨c, -, rfl⟩ := he
      exact c.2.isLt
    · have := inverseImage_found (a := e.1) (e := e.2) he
      rw [hc] at this
      cases this

end Sys2Proof.Machine
end

