-- ==== Sys2Proof/Laws/Ops.lean ====
section
/-! SUPPORT. The alphabet unit, the two ROMs and their inverse, the scan of DECODE_W, the transaction. -/

namespace Sys2Proof.Machine

/-! lut -/
theorem lut_eq_ok {s : State} {l : Lut} : s.lut = .ok l ↔ s.block = .admitted l ∧ l.Valid := by
  unfold State.lut
  cases s.block with
  | other t => simp
  | admitted l' =>
    simp only [Block.admitted.injEq, Lut.Valid]
    split
    · rename_i hv
      by_cases hi : l'.romC2V = inverseImage l'.profile.digitW l'.romV2C
      · simp only [Lut.inverseValid, hi, decide_true, if_true, Except.ok.injEq]
        exact ⟨fun h => ⟨h, h ▸ ⟨hv, hi⟩⟩, And.left⟩
      · simp only [Lut.inverseValid, hi, decide_false, Bool.false_eq_true, if_false, reduceCtorEq, false_iff]
        rintro ⟨rfl, -, h⟩; exact hi h
    · rename_i hv
      simp only [reduceCtorEq, false_iff]
      rintro ⟨rfl, h, -⟩; exact hv h

/-- A unit that answers is a valid one (R26, R28). -/
theorem lut_valid {s : State} {l : Lut} (h : s.lut = .ok l) : l.Valid := (lut_eq_ok.1 h).2

/-- R21, R26, R28: the unit of a profile is valid. -/
theorem Lut.ofProfile_valid (p : Profile) : (Lut.ofProfile p).Valid := ⟨alphabetValid_profile p, rfl⟩

/-- The digits below `RADIX` fit the digit field (R5). -/
theorem Lut.radix_le_digitW (l : Lut) : l.radix ≤ 2 ^ l.profile.digitW := by
  cases h : l.profile <;> simp [Lut.radix, Profile.radix, Profile.digitW, h]

/-- A digit field of `DIGIT_W` bits is below 128. -/
theorem readC2V_digit_lt_128 (l : Lut) (c : Byte) : (readC2V l c).digit.toNat < 128 := by
  have h := (readC2V l c).digit.isLt
  have : 2 ^ l.profile.digitW ≤ 128 := by cases l.profile <;> simp [Profile.digitW]
  omega

theorem Lut.radix_pos (l : Lut) : 0 < l.radix := by
  cases h : l.profile <;> simp [Lut.radix, Profile.radix, h]

theorem Lut.radix_le (l : Lut) : l.radix ≤ 66 := by
  cases h : l.profile <;> simp [Lut.radix, Profile.radix, h]

/-- R131: a digit expansion of a value of the policy fits. -/
theorem Lut.maxValue_lt (l : Lut) (p : Policy) : p.maxValue < l.radix ^ p.maxLen := by
  cases h : l.profile <;> cases p <;> simp [Lut.radix, Profile.radix, h, Policy.maxValue, Policy.maxLen]

/-- The character of a digit (R21); 0 where ROM_V2C has no entry. -/
def Lut.char (l : Lut) (d : Nat) : Byte := (cellAt l.romV2C d).getD 0

/-- R41, R54: below `RADIX` there is an entry. -/
theorem readV2C_of_lt {l : Lut} (hl : alphabetValid l.radix l.romV2C = true) {d : Nat} (hd : d < l.radix) :
    cellAt l.romV2C d = some (l.char d) ∧ readV2C l d = .ok (l.char d) := by
  have h1 := ((alphabetValid_iff _ _).1 hl).1
  have : (cellAt l.romV2C d).isSome := by rw [cellAt_isSome_iff, h1]; simpa using hd
  obtain ⟨c, hc⟩ := Option.isSome_iff_exists.1 this
  simp [readV2C, Lut.char, hc]

/-- R41: at and above `RADIX` there is none. -/
theorem readV2C_of_ge {l : Lut} (hl : alphabetValid l.radix l.romV2C = true) {d : Nat} (hd : l.radix ≤ d) :
    cellAt l.romV2C d = none ∧ readV2C l d = .error (.romV2CNoEntry d) := by
  have h1 := ((alphabetValid_iff _ _).1 hl).1
  have : cellAt l.romV2C d = none := by
    rw [← Option.not_isSome_iff_eq_none, cellAt_isSome_iff, h1]; simpa using hd
  simp [readV2C, this]

theorem readDigits_of_lt {l : Lut} (hl : alphabetValid l.radix l.romV2C = true) {ds : List Nat}
    (h : ∀ d ∈ ds, d < l.radix) : readDigits l ds = .ok (ds.map l.char) := by
  induction ds with
  | nil => rfl
  | cons d ds ih =>
    simp [readDigits, (readV2C_of_lt hl (h d (by simp))).2, ih fun x hx => h x (by simp [hx])]

/-! the inverse pair -/
theorem mem_v2c_iff {l : Lut} (hl : alphabetValid l.radix l.romV2C = true) (d : Nat) (c : Byte) :
    (d, c) ∈ l.romV2C ↔ d < l.radix ∧ c = l.char d := by
  have h1 := ((alphabetValid_iff _ _).1 hl).1
  have hn : (l.romV2C.map Prod.fst).Nodup := by rw [h1]; exact List.nodup_range
  rw [← cellAt_eq_some_iff hn]
  constructor
  · intro h
    have hd : d < l.radix := by
      by_contra hd
      simp [(readV2C_of_ge hl (not_lt.1 hd)).1] at h
    rw [(readV2C_of_lt hl hd).1] at h
    exact ⟨hd, by simpa using h.symm⟩
  · rintro ⟨hd, rfl⟩
    exact (readV2C_of_lt hl hd).1

theorem char_lt_iff {l : Lut} (hl : alphabetValid l.radix l.romV2C = true) {a b : Nat} (ha : a < l.radix)
    (hb : b < l.radix) : (l.char a).toNat < (l.char b).toNat ↔ a < b := by
  obtain ⟨h1, h2, -⟩ := (alphabetValid_iff _ _).1 hl
  have hlen : l.romV2C.length = l.radix := by simpa using congrArg List.length h1
  have hget : ∀ i (hi : i < l.radix), l.romV2C[i]'(hlen ▸ hi) = (i, l.char i) := by
    intro i hi
    have hfst : (l.romV2C[i]'(hlen ▸ hi)).1 = i := by
      have : (l.romV2C.map Prod.fst)[i]'(by simpa [hlen] using hi) = (List.range l.radix)[i]'(by simpa using hi) := by
        simp only [h1]
      simpa using this
    have hm := List.getElem_mem (l := l.romV2C) (hlen ▸ hi : i < l.romV2C.length)
    have := (mem_v2c_iff hl (l.romV2C[i]'(hlen ▸ hi)).1 (l.romV2C[i]'(hlen ▸ hi)).2).1 hm
    rw [hfst] at this
    exact Prod.ext hfst this.2
  have mono : ∀ {i j : Nat} (hi : i < l.radix) (hj : j < l.radix), i < j → (l.char i).toNat < (l.char j).toNat := by
    intro i j hi hj hij
    have := List.pairwise_iff_getElem.1 h2 i j (by simpa [hlen] using hi) (by simpa [hlen] using hj) hij
    simpa [hget i hi, hget j hj] using this
  constructor
  · intro h
    rcases lt_trichotomy a b with hab | rfl | hab
    · exact hab
    · omega
    · have := mono hb ha hab; omega
  · exact mono ha hb

theorem char_inj {l : Lut} (hl : alphabetValid l.radix l.romV2C = true) {a b : Nat} (ha : a < l.radix)
    (hb : b < l.radix) (h : l.char a = l.char b) : a = b := by
  have h1 := char_lt_iff hl ha hb
  have h2 := char_lt_iff hl hb ha
  rw [h] at h1 h2
  omega

/-- R104: what ROM_C2V says of a code unit. -/
theorem readC2V_eq_iff {l : Lut} (hl : l.Valid) (c : Byte) (d : Nat) :
    (readC2V l c).found = true ∧ (readC2V l c).digit.toNat = d ↔ d < l.radix ∧ c = l.char d := by
  obtain ⟨hv, hi⟩ := hl
  have h2 := ((alphabetValid_iff _ _).1 hv).2.1
  have hn : ((inverseImage l.profile.digitW l.romV2C).map Prod.fst).Nodup := by
    simp only [inverseImage, List.map_map]
    exact h2.imp (fun h => Nat.ne_of_lt h)
  have hr := l.radix_le_digitW
  constructor
  · rintro ⟨hf, hd⟩
    rw [readC2V, hi] at hf hd
    cases hc : cellAt (inverseImage l.profile.digitW l.romV2C) c.toNat with
    | none => simp [hc, C2VEntry.absent] at hf
    | some e =>
      rw [hc] at hd
      have := mem_of_cellAt_eq_some hc
      simp only [inverseImage, List.mem_map, Prod.mk.injEq] at this
      obtain ⟨⟨d', c'⟩, hm, hc', rfl⟩ := this
      obtain ⟨hd', rfl⟩ := (mem_v2c_iff hv _ _).1 hm
      have hlt : d' < 2 ^ l.profile.digitW := by omega
      simp only [Option.getD_some, BitVec.toNat_ofNat, Nat.mod_eq_of_lt hlt] at hd
      subst hd
      exact ⟨hd', BitVec.eq_of_toNat_eq hc'.symm⟩
  · rintro ⟨hd, rfl⟩
    have hm := (mem_v2c_iff hv d (l.char d)).2 ⟨hd, rfl⟩
    have : ((l.char d).toNat, (⟨true, BitVec.ofNat l.profile.digitW d⟩ : C2VEntry l.profile.digitW)) ∈ inverseImage l.profile.digitW l.romV2C :=
      List.mem_map.2 ⟨_, hm, rfl⟩
    rw [readC2V, hi, cellAt_eq_some_of_mem hn this]
    have hlt : d < 2 ^ l.profile.digitW := by omega
    simpa using Nat.mod_eq_of_lt hlt

theorem readC2V_char {l : Lut} (hl : l.Valid) {d : Nat} (hd : d < l.radix) :
    (readC2V l (l.char d)).found = true ∧ (readC2V l (l.char d)).digit.toNat = d :=
  (readC2V_eq_iff hl _ _).2 ⟨hd, rfl⟩

theorem readC2V_digit_lt {l : Lut} (hl : l.Valid) {c : Byte} (hf : (readC2V l c).found = true) :
    (readC2V l c).digit.toNat < l.radix := ((readC2V_eq_iff hl c _).1 ⟨hf, rfl⟩).1

/-! scan -/
theorem scanDigits_of_found {l : Lut} {cs : List Byte} (h : ∀ c ∈ cs, (readC2V l c).found = true) (i : Nat) :
    scanDigits l i cs = .ok (cs.map fun c => (readC2V l c).digit.toNat) := by
  induction cs generalizing i with
  | nil => rfl
  | cons c cs ih => simp [scanDigits, h c (by simp), ih fun x hx => h x (by simp [hx])]

theorem scanDigits_append_of_found {l : Lut} {cs : List Byte} (h : ∀ c ∈ cs, (readC2V l c).found = true)
    {c : Byte} (hc : (readC2V l c).found = false) (rest : List Byte) (i : Nat) :
    scanDigits l i (cs ++ c :: rest) = .error (i + cs.length, c) := by
  induction cs generalizing i with
  | nil => simp [scanDigits, hc]
  | cons d cs ih =>
    simp [scanDigits, h d (by simp), ih fun x hx => h x (by simp [hx])]; omega

/-- What a scan answers: all found, or the first that is not. -/
theorem scanDigits_cases (l : Lut) (i : Nat) (cs : List Byte) :
    (∀ c ∈ cs, (readC2V l c).found = true) ∧ scanDigits l i cs = .ok (cs.map fun c => (readC2V l c).digit.toNat) ∨
    ∃ as c bs, cs = as ++ c :: bs ∧ (∀ a ∈ as, (readC2V l a).found = true) ∧ (readC2V l c).found = false ∧
      scanDigits l i cs = .error (i + as.length, c) := by
  induction cs generalizing i with
  | nil => exact .inl ⟨by simp, rfl⟩
  | cons d cs ih =>
    by_cases hd : (readC2V l d).found = true
    · rcases ih (i + 1) with ⟨h, -⟩ | ⟨as, c, bs, rfl, has, hc, -⟩
      · have h' : ∀ c ∈ d :: cs, (readC2V l c).found = true := by simpa [hd] using h
        exact .inl ⟨h', scanDigits_of_found h' i⟩
      · have h' : ∀ a ∈ d :: as, (readC2V l a).found = true := by simpa [hd] using has
        exact .inr ⟨d :: as, c, bs, rfl, h', hc, scanDigits_append_of_found h' hc bs i⟩
    · simp only [Bool.not_eq_true] at hd
      exact .inr ⟨[], d, cs, rfl, by simp, hd, by simp [scanDigits, hd]⟩

/-! transact -/
theorem transact_of_presents {s : State} {f} {q rest l r} (hq : s.Presents q rest) (hl : s.lut = .ok l)
    (hf : f l q.req = .ok r) : transact s f = .next (s.respond q.port r rest) := by
  simp [transact, show s.requests = _ from hq, hl, hf]

/-- R5, R224: without a unit that answers, a transaction is refused for the unit's reason. -/
theorem transact_of_lut_error {s : State} {f} {q rest why} (hq : s.Presents q rest) (hl : s.lut = .error why) :
    transact s f = .refused why := by
  simp [transact, show s.requests = _ from hq, hl]

theorem transact_eq_next {s t : State} {f} (h : transact s f = .next t) :
    ∃ q rest l r, s.requests = q :: rest ∧ s.lut = .ok l ∧ f l q.req = .ok r ∧ t = s.respond q.port r rest := by
  unfold transact at h
  split at h
  · cases h
  · split at h
    · cases h
    · split at h
      · cases h
      · cases h; exact ⟨_, _, _, _, ‹_›, ‹_›, ‹_›, rfl⟩

/-- R28 item 4: the zero digit is `-`. -/
theorem char_zero {l : Lut} (hV : alphabetValid l.radix l.romV2C = true) : l.char 0 = 0x2D := by
  have := ((alphabetValid_iff _ _).1 hV).2.2.2.1.1
  simp [Lut.char, this]

/-- R101, R11: digit strings of one length sort like their values. -/
theorem stringLt_map_char {l : Lut} (hv : alphabetValid l.radix l.romV2C = true) {as bs : List Nat}
    (ha : ∀ d ∈ as, d < l.radix) (hb : ∀ d ∈ bs, d < l.radix) (hlen : as.length = bs.length) :
    stringLt (as.map l.char) (bs.map l.char) = true ↔ digitsValue l.radix as < digitsValue l.radix bs := by
  induction as generalizing bs with
  | nil => cases bs with
    | nil => simp [stringLt]
    | cons b bs => simp at hlen
  | cons a as ih =>
    cases bs with
    | nil => simp at hlen
    | cons b bs =>
      have hlen' : as.length = bs.length := by simpa using hlen
      have h1 := ha a (by simp); have h2 := hb b (by simp)
      have ha' := fun d hd => ha d (List.mem_cons_of_mem a hd)
      have hb' := fun d hd => hb d (List.mem_cons_of_mem b hd)
      have v1 := digitsValue_lt ha'
      have v2 := digitsValue_lt hb'
      simp only [List.map_cons, stringLt, Bool.or_eq_true, decide_eq_true_eq, Bool.and_eq_true, beq_iff_eq,
        char_lt_iff hv h1 h2, ih ha' hb' hlen', digitsValue_cons, hlen']
      rw [hlen'] at v1
      constructor
      · rintro (h | ⟨h, h'⟩)
        · have : (a + 1) * l.radix ^ bs.length ≤ b * l.radix ^ bs.length := Nat.mul_le_mul_right _ h
          rw [add_mul, one_mul] at this; omega
        · rw [char_inj hv h1 h2 h]; omega
      · intro h
        rcases lt_trichotomy a b with hab | rfl | hab
        · exact .inl hab
        · exact .inr ⟨rfl, by omega⟩
        · have : (b + 1) * l.radix ^ bs.length ≤ a * l.radix ^ bs.length := Nat.mul_le_mul_right _ hab
          rw [add_mul, one_mul] at this; omega

/-- R13: the value of the string operand as a sum and as the fold of its digits. -/
theorem operandValue_eq {l : Lut} {q : Request} (hn : q.lenIn.toNat ≤ 11) :
    operandValue l q = digitsValue l.radix ((stringOperand q).map fun c => (readC2V l c).digit.toNat) := by
  have hlen := stringOperand_length q
  rw [digitsValue_eq_sum, operandValue]
  simp only [List.length_map, hlen, Nat.min_eq_left hn]
  apply Finset.sum_congr rfl
  intro i hi
  have hi : i < q.lenIn.toNat := by simpa using hi
  have : i < (stringOperand q).length := by omega
  congr 1
  simp [List.getD_eq_getElem?_getD, this, stringOperand_getElem, operandDigit]

theorem respond_inj {s : State} {p r r' rest} (h : s.respond p r rest = s.respond p r' rest) : r = r' := by
  simpa [State.respond] using h

end Sys2Proof.Machine
end

