-- ==== Sys2Proof/Laws/Exec.lean ====
section
/-! SUPPORT. What each operation answers, as a function of the alphabet unit and the request. -/

namespace Sys2Proof.Machine

/-- The response of each operation, as a function of the alphabet unit and the request (R207). -/
def responseOf : Instr → Lut → Request → Except Fault Response
  | .encp32 => encodePadded .w32
  | .encp64 => encodePadded .w64
  | .encu32 => encodeUnpadded .w32
  | .encu64 => encodeUnpadded .w64
  | .dec32 => fun l q => .ok (decodeString .w32 l q)
  | .dec64 => fun l q => .ok (decodeString .w64 l q)
  | .lutv2c => digitToCharacter
  | .lutc2v => fun l q => .ok (characterToDigit l q)
  | .pol32 => fun _ _ => .ok (finishPolicy .w32)
  | .pol64 => fun _ _ => .ok (finishPolicy .w64)

theorem exec_eq_transact (i : Instr) (s : State) : exec i s = transact s (responseOf i) := by
  cases i <;> rfl

theorem exec_of_presents {i : Instr} {s : State} {q rest l r} (hq : s.Presents q rest) (hl : s.lut = .ok l)
    (hf : responseOf i l q.req = .ok r) : exec i s = .next (s.respond q.port r rest) := by
  rw [exec_eq_transact]; exact transact_of_presents hq hl hf

theorem exec_eq_next {i : Instr} {s t : State} (h : exec i s = .next t) :
    ∃ q rest l r, s.requests = q :: rest ∧ s.lut = .ok l ∧ responseOf i l q.req = .ok r ∧
      t = s.respond q.port r rest := by
  rw [exec_eq_transact] at h; exact transact_eq_next h

theorem encodePadded_of_le {p : Policy} {l : Lut} (hl : alphabetValid l.radix l.romV2C = true) {q : Request}
    (h : q.valIn.toNat ≤ p.maxValue) :
    encodePadded p l q = .ok (finishString ((digits l.radix p.maxLen (q.valIn.toNat)).map l.char)) := by
  rw [encodePadded, if_neg (not_lt.2 h),
    readDigits_of_lt hl fun d hd => digits_lt l.radix_pos hd]

theorem encodePadded_of_gt {p : Policy} (l : Lut) {q : Request} (h : p.maxValue < q.valIn.toNat) :
    encodePadded p l q = .ok (raiseEncodeRange p (q.valIn.toNat)) := by
  rw [encodePadded, if_pos h]

/-- The digits an unpadded encode writes (R136): those from the first nonzero one on. -/
def strippedDigits (radix len v : Nat) : List Nat :=
  (digits radix len v).drop ((digits radix len v).findIdx (· != 0))

theorem encodeUnpadded_of_le {p : Policy} {l : Lut} (hl : alphabetValid l.radix l.romV2C = true) {q : Request}
    (h : q.valIn.toNat ≤ p.maxValue) :
    encodeUnpadded p l q = .ok (finishString ((strippedDigits l.radix p.maxLen (q.valIn.toNat)).map l.char)) := by
  simp only [encodeUnpadded, if_neg (not_lt.2 h), strippedDigits]
  rw [readDigits_of_lt hl fun d hd => digits_lt l.radix_pos (List.mem_of_mem_drop hd)]

theorem encodeUnpadded_of_gt {p : Policy} (l : Lut) {q : Request} (h : p.maxValue < q.valIn.toNat) :
    encodeUnpadded p l q = .ok (raiseEncodeRange p (q.valIn.toNat)) := by
  rw [encodeUnpadded, if_pos h]

theorem valIn_le_w64 (q : Request) : q.valIn.toNat ≤ Policy.maxValue .w64 := by
  have := q.valIn.isLt
  simp only [Policy.maxValue]; omega

theorem strippedDigits_eq_dropWhile (radix len v : Nat) :
    strippedDigits radix len v = (digits radix len v).dropWhile (· == 0) := by
  rw [strippedDigits]
  generalize digits radix len v = ds
  induction ds with
  | nil => rfl
  | cons d ds ih =>
    by_cases h : d = 0
    · subst h; simpa [List.findIdx_cons] using ih
    · have h' : (d != 0) = true := by simpa using h
      simp [List.findIdx_cons, h', h]

theorem strippedDigits_lt {radix len v d : Nat} (hr : 0 < radix) (h : d ∈ strippedDigits radix len v) : d < radix :=
  digits_lt hr (List.mem_of_mem_drop h)

theorem strippedDigits_zero (radix len : Nat) : strippedDigits radix len 0 = [] := by
  rw [strippedDigits_eq_dropWhile, List.dropWhile_eq_nil_iff]
  simp [digits]

theorem digitsValue_dropWhile (radix : Nat) (ds : List Nat) :
    digitsValue radix (ds.dropWhile (· == 0)) = digitsValue radix ds := by
  induction ds with
  | nil => rfl
  | cons d ds ih =>
    by_cases h : d = 0
    · subst h; simp [ih, digitsValue_cons]
    · simp [h]

theorem digitsValue_strippedDigits {radix len v : Nat} (h : v < radix ^ len) :
    digitsValue radix (strippedDigits radix len v) = v := by
  rw [strippedDigits_eq_dropWhile, digitsValue_dropWhile, digitsValue_digits h]

theorem strippedDigits_length_le (radix len v : Nat) : (strippedDigits radix len v).length ≤ len := by
  simp [strippedDigits]

theorem strippedDigits_length {radix len v : Nat} (hr : 0 < radix) (hv : 0 < v) (h : v < radix ^ len) :
    0 < (strippedDigits radix len v).length ∧ radix ^ ((strippedDigits radix len v).length - 1) ≤ v ∧
      v < radix ^ (strippedDigits radix len v).length := by
  have hval := digitsValue_strippedDigits h
  have hlt : ∀ d ∈ strippedDigits radix len v, d < radix := fun d hd => digits_lt hr (List.mem_of_mem_drop hd)
  have hup := digitsValue_lt hlt
  rw [hval] at hup
  have hhead : ∀ d ds, strippedDigits radix len v = d :: ds → d ≠ 0 := by
    intro d ds he
    rw [strippedDigits_eq_dropWhile] at he
    have := List.head_dropWhile_not (p := fun x => x == 0) (l := digits radix len v) (by simp [he])
    simpa [he] using this
  cases he : strippedDigits radix len v with
  | nil => rw [he] at hval; simp at hval; omega
  | cons d ds =>
    rw [he] at hval hup
    refine ⟨by simp, ?_, hup⟩
    have hd := hhead d ds he
    rw [digitsValue_cons] at hval
    have : 1 * radix ^ ds.length ≤ d * radix ^ ds.length := Nat.mul_le_mul_right _ (by omega)
    simp only [List.length_cons, Nat.add_sub_cancel]
    omega

/-- DECODE_W on a string of valid length with all code units found (R158, R159). -/
theorem decodeString_of_found {p : Policy} {l : Lut} {q : Request} (h0 : 0 < q.lenIn.toNat)
    (hn : q.lenIn.toNat ≤ p.maxLen) (h : ∀ c ∈ stringOperand q, (readC2V l c).found = true) :
    decodeString p l q =
      let acc := digitsValue l.radix ((stringOperand q).map fun c => (readC2V l c).digit.toNat)
      if p.maxValue < acc then raiseRangeOverflow p acc else finishValue acc := by
  rw [decodeString, if_neg (not_lt.2 hn), if_neg (Nat.ne_of_gt h0), scanDigits_of_found h]

/-- DECODE_W on a string of valid length whose first code unit not found is `c` (R157). -/
theorem decodeString_of_not_found {p : Policy} {l : Lut} {q : Request} (h0 : 0 < q.lenIn.toNat)
    (hn : q.lenIn.toNat ≤ p.maxLen) {as bs : List Byte} {c : Byte} (hs : stringOperand q = as ++ c :: bs)
    (has : ∀ a ∈ as, (readC2V l a).found = true) (hc : (readC2V l c).found = false) :
    decodeString p l q = raiseInvalidCharacter as.length c := by
  rw [decodeString, if_neg (not_lt.2 hn), if_neg (Nat.ne_of_gt h0), hs, scanDigits_append_of_found has hc,
    Nat.zero_add]

theorem decodeString_of_long {p : Policy} {q : Request} (l : Lut) (h : p.maxLen < q.lenIn.toNat) :
    decodeString p l q = raiseLengthExceeded p (q.lenIn.toNat) := by rw [decodeString, if_pos h]

theorem decodeString_of_empty (p : Policy) {q : Request} (l : Lut) (h : q.lenIn.toNat = 0) :
    decodeString p l q = raiseEmptyInput := by rw [decodeString, if_neg (by omega), if_pos h]

/-- Everything DECODE_W can answer (R151). -/
theorem decodeString_cases (p : Policy) (l : Lut) (q : Request) :
    p.maxLen < q.lenIn.toNat ∧ decodeString p l q = raiseLengthExceeded p (q.lenIn.toNat) ∨
    q.lenIn.toNat = 0 ∧ decodeString p l q = raiseEmptyInput ∨
    (0 < q.lenIn.toNat ∧ q.lenIn.toNat ≤ p.maxLen) ∧
      ((∃ as c bs, stringOperand q = as ++ c :: bs ∧ (∀ a ∈ as, (readC2V l a).found = true) ∧
          (readC2V l c).found = false ∧ decodeString p l q = raiseInvalidCharacter as.length c) ∨
        ∃ acc, (∀ c ∈ stringOperand q, (readC2V l c).found = true) ∧
          acc = digitsValue l.radix ((stringOperand q).map fun c => (readC2V l c).digit.toNat) ∧
          (p.maxValue < acc ∧ decodeString p l q = raiseRangeOverflow p acc ∨
            acc ≤ p.maxValue ∧ decodeString p l q = finishValue acc)) := by
  by_cases h1 : p.maxLen < q.lenIn.toNat
  · exact .inl ⟨h1, decodeString_of_long l h1⟩
  by_cases h2 : q.lenIn.toNat = 0
  · exact .inr (.inl ⟨h2, decodeString_of_empty p l h2⟩)
  have h0 : 0 < q.lenIn.toNat := by omega
  refine .inr (.inr ⟨⟨h0, not_lt.1 h1⟩, ?_⟩)
  rcases scanDigits_cases l 0 (stringOperand q) with ⟨h, -⟩ | ⟨as, c, bs, hs, has, hc, -⟩
  · right
    refine ⟨_, h, rfl, ?_⟩
    have := decodeString_of_found h0 (not_lt.1 h1) h
    by_cases hm : p.maxValue < digitsValue l.radix ((stringOperand q).map fun c => (readC2V l c).digit.toNat)
    · exact .inl ⟨hm, by rw [this]; simp only [if_pos hm]⟩
    · exact .inr ⟨not_lt.1 hm, by rw [this]; simp only [if_neg hm]⟩
  · exact .inl ⟨as, c, bs, hs, has, hc, decodeString_of_not_found h0 (not_lt.1 h1) hs has hc⟩

theorem policy_maxLen_le (p : Policy) : p.maxLen ≤ 11 := by cases p <;> decide

/-- R54, R224: with a valid alphabet every operation answers. -/
theorem responseOf_ok (i : Instr) {l : Lut} (hv : alphabetValid l.radix l.romV2C = true) (q : Request) :
    ∃ r, responseOf i l q = .ok r := by
  have e1 : ∀ w, ∃ r, encodePadded w l q = .ok r := by
    intro w
    rcases Nat.lt_or_ge w.maxValue q.valIn.toNat with h | h
    · exact ⟨_, encodePadded_of_gt l h⟩
    · exact ⟨_, encodePadded_of_le hv h⟩
  have e2 : ∀ w, ∃ r, encodeUnpadded w l q = .ok r := by
    intro w
    rcases Nat.lt_or_ge w.maxValue q.valIn.toNat with h | h
    · exact ⟨_, encodeUnpadded_of_gt l h⟩
    · exact ⟨_, encodeUnpadded_of_le hv h⟩
  cases i
  · exact e1 _
  · exact e1 _
  · exact e2 _
  · exact e2 _
  · exact ⟨_, rfl⟩
  · exact ⟨_, rfl⟩
  · simp only [responseOf, digitToCharacter]
    by_cases h : l.radix ≤ q.valIn.toNat
    · exact ⟨_, by rw [if_pos h]⟩
    · rw [if_neg h]
      have h := not_le.1 h
      have : q.valIn.toNat % 2 ^ l.profile.digitW < l.radix := (Nat.mod_le _ _).trans_lt h
      rw [(readV2C_of_lt hv this).2]; exact ⟨_, rfl⟩
  · exact ⟨_, rfl⟩
  · exact ⟨_, rfl⟩
  · exact ⟨_, rfl⟩

/-- R62, R71, R202: a response is well formed, and its status is one of the operation's. -/
theorem responseOf_wf {i : Instr} {l : Lut} (hv : alphabetValid l.radix l.romV2C = true) {q : Request}
    {r} (h : responseOf i l q = .ok r) :
    responseWf l.radix r = true ∧ ∃ st ∈ statusesOf i, r.status = statusCode st := by
  have fs : ∀ cs : List Byte, cs.length ≤ 11 → responseWf l.radix (finishString cs) = true := by
    intro cs hc
    have hn : (finishString cs).lenOut.toNat = cs.length := by simp [finishString]; omega
    have hd : ((slotsOf cs).toList.drop cs.length).all (· == 0) = true := by
      rw [List.all_eq_true]
      intro x hx
      obtain ⟨i, hi, rfl⟩ := List.getElem_of_mem hx
      simp [slotsOf_toList, List.getD_eq_getElem?_getD]
    have e : responseWf l.radix (finishString cs) =
        (decide ((finishString cs).lenOut.toNat ≤ 11) &&
          ((slotsOf cs).toList.drop (finishString cs).lenOut.toNat).all (· == 0)) := by
      simp [responseWf, finishString, statusCode, zeroResponse]
    rw [e, hn, hd]; simpa using hc
  have re : ∀ v : BitVec 64, 4294967295 < v.toNat → responseWf l.radix (raiseEncodeRange .w32 v.toNat) = true := by
    intro v h
    have : v.toNat % 4722366482869645213696 = v.toNat := Nat.mod_eq_of_lt (by omega)
    simp [responseWf, raiseEncodeRange, statusCode, zeroResponse, Policy.maxValue, this, h]
  have fv : ∀ n, responseWf l.radix (finishValue n) = true := by
    intro n; simp [responseWf, finishValue, statusCode, zeroResponse]; decide
  have d : ∀ w q, responseWf l.radix (decodeString w l q) = true ∧
      ∃ st ∈ statusesOf .dec32, (decodeString w l q).status = statusCode st := by
    intro w q
    have h11 := policy_maxLen_le w
    have hlen := stringOperand_length q
    rcases decodeString_cases w l q with ⟨h, e⟩ | ⟨h, e⟩ | ⟨⟨h0, hn⟩,
      ⟨as, c, bs, hs, has, hc, e⟩ | ⟨acc, hf, ha, ⟨hm, e⟩ | ⟨hm, e⟩⟩⟩
    · rw [e]; refine ⟨?_, .lengthExceeded, by simp [statusesOf], rfl⟩
      cases w <;> simp [responseWf, raiseLengthExceeded, statusCode, zeroResponse, Policy.maxLen] at h ⊢ <;> exact h
    · rw [e]; exact ⟨rfl, .emptyInput, by simp [statusesOf], rfl⟩
    · rw [e]; refine ⟨?_, .invalidCharacter, by simp [statusesOf], rfl⟩
      have : as.length ≤ 10 := by
        have := congrArg List.length hs
        simp at this; omega
      simp [responseWf, raiseInvalidCharacter, statusCode, zeroResponse]; omega
    · rw [e]; refine ⟨?_, .rangeOverflow, by simp [statusesOf], rfl⟩
      have hlt : acc < 2 ^ 72 := by
        rw [ha]
        have := l.radix_le
        refine digitsValue_lt_two_pow_72 ?_ (by simp; omega) this
        intro d hd
        obtain ⟨c, -, rfl⟩ := List.mem_map.1 hd
        exact readC2V_digit_lt_128 l c
      have hlt : acc % 4722366482869645213696 = acc := Nat.mod_eq_of_lt hlt
      cases w <;> simp [responseWf, raiseRangeOverflow, statusCode, zeroResponse, Policy.maxValue] at hm ⊢ <;> omega
    · rw [e]; exact ⟨fv _, .ok, by simp [statusesOf], rfl⟩
  cases i
  · rcases Nat.lt_or_ge 4294967295 q.valIn.toNat with hh | hh
    · rw [show responseOf .encp32 l q = _ from encodePadded_of_gt (p := .w32) l hh] at h; cases h
      exact ⟨re _ hh, .encodeRange, by simp [statusesOf], rfl⟩
    · rw [show responseOf .encp32 l q = _ from encodePadded_of_le (p := .w32) hv hh] at h; cases h
      exact ⟨fs _ (by simp [Policy.maxLen]), .ok, by simp [statusesOf], rfl⟩
  · rw [show responseOf .encp64 l q = _ from encodePadded_of_le (p := .w64) hv (valIn_le_w64 q)] at h; cases h
    exact ⟨fs _ (by simp [Policy.maxLen]), .ok, by simp [statusesOf], rfl⟩
  · rcases Nat.lt_or_ge 4294967295 q.valIn.toNat with hh | hh
    · rw [show responseOf .encu32 l q = _ from encodeUnpadded_of_gt (p := .w32) l hh] at h; cases h
      exact ⟨re _ hh, .encodeRange, by simp [statusesOf], rfl⟩
    · rw [show responseOf .encu32 l q = _ from encodeUnpadded_of_le (p := .w32) hv hh] at h; cases h
      exact ⟨fs _ (by have := strippedDigits_length_le l.radix 6 q.valIn.toNat; simp [Policy.maxLen]; omega),
        .ok, by simp [statusesOf], rfl⟩
  · rw [show responseOf .encu64 l q = _ from encodeUnpadded_of_le (p := .w64) hv (valIn_le_w64 q)] at h; cases h
    exact ⟨fs _ (by have := strippedDigits_length_le l.radix 11 q.valIn.toNat; simp [Policy.maxLen]; omega),
      .ok, by simp [statusesOf], rfl⟩
  · cases h; exact d .w32 q
  · cases h; exact d .w64 q
  · simp only [responseOf, digitToCharacter] at h
    by_cases hh : l.radix ≤ q.valIn.toNat
    · rw [if_pos hh] at h; cases h
      refine ⟨?_, .digitRange, by simp [statusesOf], rfl⟩
      have := l.radix_le
      have h1 : q.valIn.toNat % 4722366482869645213696 = q.valIn.toNat := Nat.mod_eq_of_lt (by omega)
      simp [responseWf, raiseDigitRange, statusCode, zeroResponse]; omega
    · rw [if_neg hh] at h
      split at h
      · cases h
      · cases h
        refine ⟨?_, .ok, by simp [statusesOf], rfl⟩
        rename_i c _
        have := fs [c] (by simp)
        simp [responseWf, finishCharacter, finishString, statusCode, zeroResponse] at this ⊢
        exact this
  · cases h
    simp only [characterToDigit]
    split
    · exact ⟨by simp [responseWf, raiseNotFound, statusCode, zeroResponse], .notFound, by simp [statusesOf], rfl⟩
    · split
      · exact ⟨fv _, .ok, by simp [statusesOf], rfl⟩
      · exact ⟨by simp [responseWf, raiseNotFound, statusCode, zeroResponse], .notFound, by simp [statusesOf], rfl⟩
  · cases h; exact ⟨rfl, .ok, by simp [statusesOf], rfl⟩
  · cases h; exact ⟨rfl, .ok, by simp [statusesOf], rfl⟩

/-- R75: DECODE_W reads `len_in` and the slots below it. -/
theorem decodeString_congr {w : Policy} {l : Lut} {a b : Request} (h : a.lenIn = b.lenIn)
    (h2 : a.lenIn.toNat ≤ w.maxLen → ∀ i, i < a.lenIn.toNat → slotAt a.strIn i = slotAt b.strIn i) :
    decodeString w l a = decodeString w l b := by
  have h11 := policy_maxLen_le w
  by_cases hn : a.lenIn.toNat ≤ w.maxLen
  · have : stringOperand a = stringOperand b := by
      apply List.ext_getElem
      · rw [stringOperand_length, stringOperand_length, h]
      · intro i h1 h3
        rw [stringOperand_getElem, stringOperand_getElem]
        rw [stringOperand_length] at h1
        exact h2 hn i (by omega)
    simp only [decodeString, this, h]
  · rw [decodeString_of_long l (not_le.1 hn), decodeString_of_long l (by rw [← h]; exact not_le.1 hn), h]

/-- DECODE_W on a string of alphabet characters, by their digits (R104, R158, R159). -/
theorem decodeString_of_chars {w : Policy} {l : Lut} (hV : l.Valid) {ds : List Nat} (hds : ∀ d ∈ ds, d < l.radix)
    (h0 : ds ≠ []) (hn : ds.length ≤ w.maxLen) {q : Request} (hq : stringOperand q = ds.map l.char)
    (hlen : q.lenIn.toNat = ds.length) :
    decodeString w l q = if w.maxValue < digitsValue l.radix ds then raiseRangeOverflow w (digitsValue l.radix ds)
      else finishValue (digitsValue l.radix ds) := by
  have hpos : 0 < ds.length := List.length_pos_iff.2 h0
  have := decodeString_of_found (p := w) (l := l) (q := q) (by omega) (by omega) (by
    rw [hq]; intro c hc
    obtain ⟨d, hd, rfl⟩ := List.mem_map.1 hc
    exact (readC2V_char hV (hds d hd)).1)
  rw [this, hq, List.map_map]
  have : ds.map ((fun c => (readC2V l c).digit.toNat) ∘ l.char) = ds := by
    conv_rhs => rw [← List.map_id ds]
    apply List.map_congr_left
    intro d hd; exact (readC2V_char hV (hds d hd)).2
  rw [this]

/-- A string response, given back as the operand of a decode. -/
theorem stringOperand_of_finishString {q' : Request} {cs : List Byte} (hc : cs.length ≤ 11)
    (hl : q'.lenIn = (finishString cs).lenOut.setWidth 32) (hs : q'.strIn = (finishString cs).strOut) :
    q'.lenIn.toNat = cs.length ∧ stringOperand q' = cs := by
  have : q'.lenIn.toNat = cs.length := by
    simp [hl, finishString]; omega
  refine ⟨this, ?_⟩
  rw [stringOperand, this, hs]
  exact take_slotsOf hc

theorem responseText_finishString {cs : List Byte} (hc : cs.length ≤ 11) : responseText (finishString cs) = cs := by
  rw [responseText]
  have : (finishString cs).lenOut.toNat = cs.length := by simp [finishString]; omega
  rw [this]; exact take_slotsOf hc

/-- R70: no well-formed response has a reserved status. -/
theorem statusReserved_of_responseWf {n r} (h : responseWf n r = true) : statusReserved r.status = false := by
  unfold responseWf at h
  simp only [statusReserved, decide_eq_false_iff_not]
  repeat' split at h
  all_goals first
    | (rename_i hs; rw [hs]; decide)
    | (simp at h; rw [h]; decide)

/-- R28: a machine whose ROM pair holds its profile answers with a valid unit. -/
theorem lut_of_romsHoldProfile {s : State} (h : s.RomsHoldProfile) :
    ∃ l, s.lut = .ok l ∧ s.block.radix = l.radix ∧ l.Valid := by
  obtain ⟨p, h⟩ := h
  exact ⟨Lut.ofProfile p, lut_eq_ok.2 ⟨h, Lut.ofProfile_valid p⟩, by rw [h]; rfl, Lut.ofProfile_valid p⟩

end Sys2Proof.Machine
end

