-- ==== Sys2Proof/Laws/PerInstr.lean ====
section
/-! SUPPORT. What is said of every instruction as syntax: its command word is well formed (R63, R64), has
the 8 bits R63 gives it under mask 0xFF, and decodes back to the instruction (R65, R66). -/

namespace Sys2Proof.Laws.Encoding

/-- The encoding of `i` is well formed, decodes to `i`, and the table's reader agrees (R63-R66, R68). -/
def Statement (i : Instr) : Prop :=
  i.command.wellFormed = true ∧ decode (encode i) = .ok i ∧ commandFields (encode i) = i.command ∧
    decodeTableWord 8 (encode i).toNat = some i

theorem encp32 : Statement .encp32 := ⟨by decide, by decide, by decide, by decide⟩
theorem encp64 : Statement .encp64 := ⟨by decide, by decide, by decide, by decide⟩
theorem encu32 : Statement .encu32 := ⟨by decide, by decide, by decide, by decide⟩
theorem encu64 : Statement .encu64 := ⟨by decide, by decide, by decide, by decide⟩
theorem dec32 : Statement .dec32 := ⟨by decide, by decide, by decide, by decide⟩
theorem dec64 : Statement .dec64 := ⟨by decide, by decide, by decide, by decide⟩
theorem lutv2c : Statement .lutv2c := ⟨by decide, by decide, by decide, by decide⟩
theorem lutc2v : Statement .lutc2v := ⟨by decide, by decide, by decide, by decide⟩
theorem pol32 : Statement .pol32 := ⟨by decide, by decide, by decide, by decide⟩
theorem pol64 : Statement .pol64 := ⟨by decide, by decide, by decide, by decide⟩

end Sys2Proof.Laws.Encoding
end

