-- ==== Sys2Proof/Laws/State.lean ====
section
/-! SUPPORT. One lemma per field for each update of the state, so that no proof unfolds a record
update. -/

namespace Sys2Proof.Machine

/-! ### A request answered -/

@[simp] theorem respond_block (s : State) (port : Nat) (r : Response) (rest : List PortRequest) :
    (s.respond port r rest).block = s.block := rfl
@[simp] theorem respond_rst (s : State) (port : Nat) (r : Response) (rest : List PortRequest) :
    (s.respond port r rest).rst = s.rst := rfl
@[simp] theorem respond_requests (s : State) (port : Nat) (r : Response) (rest : List PortRequest) :
    (s.respond port r rest).requests = rest := rfl
@[simp] theorem respond_inFlight (s : State) (port : Nat) (r : Response) (rest : List PortRequest) :
    (s.respond port r rest).inFlight = s.inFlight ++ [⟨⟨port, r⟩, s.accepted, 0⟩] := rfl
@[simp] theorem respond_rspReady (s : State) (port : Nat) (r : Response) (rest : List PortRequest) :
    (s.respond port r rest).rspReady = s.rspReady := rfl
@[simp] theorem respond_delivered (s : State) (port : Nat) (r : Response) (rest : List PortRequest) :
    (s.respond port r rest).delivered = s.delivered := rfl
@[simp] theorem respond_agenda (s : State) (port : Nat) (r : Response) (rest : List PortRequest) :
    (s.respond port r rest).agenda = s.agenda := rfl
@[simp] theorem respond_accepted (s : State) (port : Nat) (r : Response) (rest : List PortRequest) :
    (s.respond port r rest).accepted = s.accepted + 1 := rfl

/-! ### A request presented -/

@[simp] theorem presentRequest_block (s : State) (q : PortRequest) :
    (presentRequest s q).block = s.block := rfl
@[simp] theorem presentRequest_rst (s : State) (q : PortRequest) :
    (presentRequest s q).rst = s.rst := rfl
@[simp] theorem presentRequest_requests (s : State) (q : PortRequest) :
    (presentRequest s q).requests = s.requests ++ [q] := rfl
@[simp] theorem presentRequest_inFlight (s : State) (q : PortRequest) :
    (presentRequest s q).inFlight = s.inFlight := rfl
@[simp] theorem presentRequest_rspReady (s : State) (q : PortRequest) :
    (presentRequest s q).rspReady = s.rspReady := rfl
@[simp] theorem presentRequest_delivered (s : State) (q : PortRequest) :
    (presentRequest s q).delivered = s.delivered := rfl
@[simp] theorem presentRequest_agenda (s : State) (q : PortRequest) :
    (presentRequest s q).agenda = s.agenda := rfl
@[simp] theorem presentRequest_accepted (s : State) (q : PortRequest) :
    (presentRequest s q).accepted = s.accepted := rfl

/-! ### `rst` asserted -/

@[simp] theorem driveRst_true_block (s : State) :
    (driveRst s true).block = s.block := rfl
@[simp] theorem driveRst_true_rst (s : State) :
    (driveRst s true).rst = true := rfl
@[simp] theorem driveRst_true_requests (s : State) :
    (driveRst s true).requests = s.requests := rfl
@[simp] theorem driveRst_true_inFlight (s : State) :
    (driveRst s true).inFlight = [] := rfl
@[simp] theorem driveRst_true_rspReady (s : State) :
    (driveRst s true).rspReady = s.rspReady := rfl
@[simp] theorem driveRst_true_delivered (s : State) :
    (driveRst s true).delivered = s.delivered := rfl
@[simp] theorem driveRst_true_agenda (s : State) :
    (driveRst s true).agenda = s.agenda := rfl
@[simp] theorem driveRst_true_accepted (s : State) :
    (driveRst s true).accepted = s.accepted := rfl

/-! ### `rst` deasserted -/

@[simp] theorem driveRst_false_block (s : State) :
    (driveRst s false).block = s.block := rfl
@[simp] theorem driveRst_false_rst (s : State) :
    (driveRst s false).rst = false := rfl
@[simp] theorem driveRst_false_requests (s : State) :
    (driveRst s false).requests = s.requests := rfl
@[simp] theorem driveRst_false_inFlight (s : State) :
    (driveRst s false).inFlight = s.inFlight := rfl
@[simp] theorem driveRst_false_rspReady (s : State) :
    (driveRst s false).rspReady = s.rspReady := rfl
@[simp] theorem driveRst_false_delivered (s : State) :
    (driveRst s false).delivered = s.delivered := rfl
@[simp] theorem driveRst_false_agenda (s : State) :
    (driveRst s false).agenda = s.agenda := rfl
@[simp] theorem driveRst_false_accepted (s : State) :
    (driveRst s false).accepted = s.accepted := rfl

/-! ### `rsp_ready` driven -/

@[simp] theorem driveRspReady_block (s : State) (port : Nat) (level : Bool) :
    (driveRspReady s port level).block = s.block := by
  unfold driveRspReady; split <;> [split; skip] <;> rfl
@[simp] theorem driveRspReady_rst (s : State) (port : Nat) (level : Bool) :
    (driveRspReady s port level).rst = s.rst := by
  unfold driveRspReady; split <;> [split; skip] <;> rfl
@[simp] theorem driveRspReady_requests (s : State) (port : Nat) (level : Bool) :
    (driveRspReady s port level).requests = s.requests := by
  unfold driveRspReady; split <;> [split; skip] <;> rfl
@[simp] theorem driveRspReady_inFlight (s : State) (port : Nat) (level : Bool) :
    (driveRspReady s port level).inFlight = s.inFlight := by
  unfold driveRspReady; split <;> [split; skip] <;> rfl
@[simp] theorem driveRspReady_delivered (s : State) (port : Nat) (level : Bool) :
    (driveRspReady s port level).delivered = s.delivered := by
  unfold driveRspReady; split <;> [split; skip] <;> rfl
@[simp] theorem driveRspReady_agenda (s : State) (port : Nat) (level : Bool) :
    (driveRspReady s port level).agenda = s.agenda := by
  unfold driveRspReady; split <;> [split; skip] <;> rfl
@[simp] theorem driveRspReady_accepted (s : State) (port : Nat) (level : Bool) :
    (driveRspReady s port level).accepted = s.accepted := by
  unfold driveRspReady; split <;> [split; skip] <;> rfl

/-! ### A clock cycle -/

@[simp] theorem passCycle_block (s : State) : (passCycle s).block = s.block := by
  unfold passCycle; split <;> rfl
@[simp] theorem passCycle_rst (s : State) : (passCycle s).rst = s.rst := by
  unfold passCycle; split <;> rfl
@[simp] theorem passCycle_requests (s : State) : (passCycle s).requests = s.requests := by
  unfold passCycle; split <;> rfl
@[simp] theorem passCycle_rspReady (s : State) : (passCycle s).rspReady = s.rspReady := by
  unfold passCycle; split <;> rfl
@[simp] theorem passCycle_delivered (s : State) : (passCycle s).delivered = s.delivered := by
  unfold passCycle; split <;> rfl
@[simp] theorem passCycle_agenda (s : State) : (passCycle s).agenda = s.agenda := by
  unfold passCycle; split <;> rfl
@[simp] theorem passCycle_accepted (s : State) : (passCycle s).accepted = s.accepted := by
  unfold passCycle; split <;> rfl

theorem passCycle_of_rst {s : State} (h : s.rst = true) : passCycle s = s := by simp [passCycle, h]
theorem passCycle_of_not_rst {s : State} (h : s.rst = false) :
    passCycle s = { s with inFlight := s.inFlight.map InFlight.older } := by simp [passCycle, h]

@[simp] theorem older_toPortResponse (a : InFlight) : a.older.toPortResponse = a.toPortResponse := rfl
@[simp] theorem older_ticket (a : InFlight) : a.older.ticket = a.ticket := rfl
@[simp] theorem older_age (a : InFlight) : a.older.age = a.age + 1 := rfl

/-- A latency that is over stays over (R247, R249). -/
theorem older_latencyOver {a : InFlight} (h : a.latencyOver = true) : a.older.latencyOver = true :=
  decide_eq_true (Nat.le_succ_of_le (of_decide_eq_true h))

/-! ### A command word stored -/

@[simp] theorem withCommand_block (s : State) (cmd : BitVec 8) : (withCommand s cmd).block = s.block := by
  unfold withCommand; split <;> rfl
@[simp] theorem withCommand_rst (s : State) (cmd : BitVec 8) : (withCommand s cmd).rst = false := by
  unfold withCommand; split <;> rfl
@[simp] theorem withCommand_inFlight (s : State) (cmd : BitVec 8) : (withCommand s cmd).inFlight = s.inFlight := by
  unfold withCommand; split <;> rfl
@[simp] theorem withCommand_rspReady (s : State) (cmd : BitVec 8) : (withCommand s cmd).rspReady = s.rspReady := by
  unfold withCommand; split <;> rfl
@[simp] theorem withCommand_delivered (s : State) (cmd : BitVec 8) : (withCommand s cmd).delivered = s.delivered := by
  unfold withCommand; split <;> rfl
@[simp] theorem withCommand_agenda (s : State) (cmd : BitVec 8) : (withCommand s cmd).agenda = [] := by
  unfold withCommand; split <;> rfl
@[simp] theorem withCommand_accepted (s : State) (cmd : BitVec 8) :
    (withCommand s cmd).accepted = s.accepted := by
  unfold withCommand; split <;> rfl

theorem withCommand_requests_nil {s : State} (h : s.requests = []) (cmd : BitVec 8) :
    (withCommand s cmd).requests = [⟨0, { zeroRequest with cmd := cmd }⟩] := by
  simp [withCommand, h]

theorem withCommand_requests_cons {s : State} {q : PortRequest} {rest : List PortRequest}
    (h : s.requests = q :: rest) (cmd : BitVec 8) :
    (withCommand s cmd).requests = ⟨q.port, { q.req with cmd := cmd }⟩ :: rest := by
  simp [withCommand, h]

/-- The alphabet unit depends on the block alone. -/
theorem lut_congr {s t : State} (h : t.block = s.block) : t.lut = s.lut := by
  simp [State.lut, h]

@[simp] theorem withFetchWord_lut (s : State) (nbits w : Nat) : (s.withFetchWord nbits w).lut = s.lut :=
  lut_congr (withCommand_block ..)

end Sys2Proof.Machine
end

