-- ==== Sys2Proof/Laws/Step.lean ====
section
/-! SUPPORT. What a transfer, a move and a step can do, and that every step keeps the canonical form of memory. -/

namespace Sys2Proof.Machine

/-! Port and step -/
theorem oldestOn_eq_some {port : Nat} {as : List InFlight} {a bs} (h : oldestOn port as = some (a, bs)) :
    ∃ before after, as = before ++ a :: after ∧ bs = before ++ after ∧ a.port = port ∧
      ∀ b ∈ before, b.port ≠ port := by
  induction as generalizing a bs with
  | nil => simp [oldestOn] at h
  | cons x as ih =>
    rw [oldestOn] at h
    split at h
    · rename_i hx
      simp only [Option.some.injEq, Prod.mk.injEq] at h
      obtain ⟨rfl, rfl⟩ := h
      exact ⟨[], as, rfl, rfl, hx, by simp⟩
    · rename_i hx
      split at h
      · rename_i b bs' hb
        simp only [Option.some.injEq, Prod.mk.injEq] at h
        obtain ⟨rfl, rfl⟩ := h
        obtain ⟨before, after, rfl, rfl, hp, hbf⟩ := ih hb
        exact ⟨x :: before, after, rfl, rfl, hp, by simpa [hx] using hbf⟩
      · cases h

theorem oldestOn_append {port : Nat} {before after : List InFlight} {a : InFlight}
    (hb : ∀ b ∈ before, b.port ≠ port) (ha : a.port = port) :
    oldestOn port (before ++ a :: after) = some (a, before ++ after) := by
  induction before with
  | nil => simp [oldestOn, ha]
  | cons x before ih => simp [oldestOn, hb x (by simp), ih fun b h => hb b (by simp [h])]

theorem oldestOn_eq_none {port : Nat} {as : List InFlight} :
    oldestOn port as = none ↔ ∀ a ∈ as, a.port ≠ port := by
  induction as with
  | nil => simp [oldestOn]
  | cons x as ih =>
    rw [oldestOn]
    split
    · simp_all
    · split <;> simp_all

/-- A clock cycle leaves the oldest of a port the oldest, one cycle older (R249). -/
theorem oldestOn_older (port : Nat) (as : List InFlight) :
    oldestOn port (as.map InFlight.older) =
      (oldestOn port as).map fun x => (x.1.older, x.2.map InFlight.older) := by
  induction as with
  | nil => rfl
  | cons x as ih =>
    simp only [List.map_cons, oldestOn, older_toPortResponse, ih]
    split
    · rfl
    · cases oldestOn port as <;> rfl

/-- `rsp_valid` of a port with a response in flight (R241, R249). -/
theorem rspValid_of_oldestOn {s : State} {port : Nat} {a rest} (h : oldestOn port s.inFlight = some (a, rest)) :
    s.rspValid port = (!s.rst && a.latencyOver) := by simp [State.rspValid, h]

/-- Everything a response transfer can do (R247). -/
theorem deliverOn_eq_next {s t : State} {port : Nat} (h : deliverOn s port = .next t) :
    t = s ∨ ∃ a before after, s.rst = false ∧ port ∈ s.rspReady ∧ s.inFlight = before ++ a :: after ∧
      a.port = port ∧ (∀ b ∈ before, b.port ≠ port) ∧ a.latencyOver = true ∧
      statusReserved a.rsp.status = false ∧
      t = { s with inFlight := before ++ after, delivered := s.delivered ++ [a.toPortResponse] } := by
  unfold deliverOn at h
  split at h
  · rename_i hv
    split at h
    · cases h; exact .inl rfl
    · rename_i a rest ho
      obtain ⟨before, after, he, rfl, hp, hb⟩ := oldestOn_eq_some ho
      split at h
      · cases h
      · rename_i hs
        cases h
        simp only [rspValid_of_oldestOn ho, State.rspReadyOn, Bool.and_eq_true, Bool.not_eq_true',
          List.contains_iff_mem] at hv
        exact .inr ⟨a, before, after, hv.1.1, hv.2, he, hp, hb, hv.1.2, by simpa using hs, rfl⟩
  · cases h; exact .inl rfl

theorem fetchCommand_eq {s : State} {q rest} (hr : s.rst = false) (hq : s.Presents q rest) :
    fetchCommand s = some q.req.cmd := by
  simp [fetchCommand, State.reqValid, State.reqReady, hr, show s.requests = _ from hq]

theorem fetchCommand_eq_some {s : State} {c} (h : fetchCommand s = some c) :
    s.rst = false ∧ ∃ q rest, s.Presents q rest ∧ c = q.req.cmd := by
  unfold fetchCommand at h
  cases hq : s.requests with
  | nil => simp [State.reqValid, hq] at h
  | cons q rest =>
    simp only [State.reqValid, State.reqReady, hq] at h
    cases hr : s.rst <;> simp [hr] at h
    exact ⟨rfl, q, rest, hq, h.symm⟩

/-- Everything a request transfer can do (R206, R245). -/
theorem serve_eq_next {s t : State} (h : serve s = .next t) :
    (t = s ∧ (s.rst = true ∨ s.requests = [])) ∨
    ∃ q rest l r, s.rst = false ∧ s.requests = q :: rest ∧ s.lut = .ok l ∧ t = s.respond q.port r rest ∧
      ((∃ i, decode q.req.cmd = .ok i ∧ responseOf i l q.req = .ok r) ∨
        (∃ e, decode q.req.cmd = .error e) ∧ r = raiseIllegalOp) := by
  unfold serve at h
  split at h
  · rename_i hf
    cases h
    refine .inl ⟨rfl, ?_⟩
    cases hq : s.requests with
    | nil => exact .inr rfl
    | cons q rest =>
      left
      by_contra hr
      rw [fetchCommand_eq (by simpa using hr) hq] at hf
      cases hf
  · rename_i c hf
    obtain ⟨hr, q, rest, hq, rfl⟩ := fetchCommand_eq_some hf
    right
    split at h
    · rename_i i hd
      obtain ⟨q', rest', l, r, h1, h2, h3, h4⟩ := exec_eq_next h
      have : s.requests = q :: rest := hq
      rw [this] at h1
      cases h1
      exact ⟨q, rest, l, r, hr, this, h2, h4, .inl ⟨i, hd, h3⟩⟩
    · rename_i e hd
      obtain ⟨q', rest', l, r, h1, h2, h3, h4⟩ := transact_eq_next h
      have : s.requests = q :: rest := hq
      rw [this] at h1
      cases h1
      cases h3
      exact ⟨q, rest, l, _, hr, this, h2, h4, .inr ⟨⟨e, hd⟩, rfl⟩⟩

theorem serve_of_decode {s : State} {q rest i} (hr : s.rst = false) (hq : s.Presents q rest)
    (hd : decode q.req.cmd = .ok i) : serve s = exec i s := by
  simp [serve, fetchCommand_eq hr hq, hd]

theorem autonomous_of_presents {s : State} {q rest} (hr : s.rst = false) (hq : s.Presents q rest) :
    autonomous s = serve s := by
  simp [autonomous, State.reqValid, State.reqReady, hr, show s.requests = _ from hq]

/-- What moves a step with an empty agenda (log 6). -/
theorem autonomous_cases (s : State) :
    autonomous s = serve s ∨ (∃ port, nextDeliverable s = some port ∧ autonomous s = deliverOn s port) ∨
      (nextDeliverable s = none ∧ autonomous s = .next (passCycle s)) := by
  unfold autonomous
  split
  · exact .inl rfl
  · split
    · rename_i port hp; exact .inr (.inl ⟨port, hp, rfl⟩)
    · rename_i hn; exact .inr (.inr ⟨hn, rfl⟩)

/-- Everything a step can do: it is the next move of the agenda, a transfer, or a clock cycle. -/
theorem step_cases (s : State) :
    (s.agenda = [] ∧ (step s = serve s ∨ (∃ port, step s = deliverOn s port) ∨
      step s = .next (passCycle s))) ∨
    ∃ m rest, s.agenda = m :: rest ∧ step s = move m { s with agenda := rest } := by
  cases ha : s.agenda with
  | nil =>
    left
    have : step s = autonomous s := by simp [step, ha]
    rw [this]
    rcases autonomous_cases s with h | ⟨p, -, h⟩ | ⟨-, h⟩
    · exact ⟨rfl, .inl h⟩
    · exact ⟨rfl, .inr (.inl ⟨p, h⟩)⟩
    · exact ⟨rfl, .inr (.inr h)⟩
  | cons m rest => exact .inr ⟨m, rest, rfl, by simp [step, ha]⟩

theorem step_of_cons {s : State} {m : Move} {rest : List Move} (h : s.agenda = m :: rest) :
    step s = move m { s with agenda := rest } := by simp [step, h]
theorem step_of_nil {s : State} (h : s.agenda = []) : step s = autonomous s := by simp [step, h]
theorem run_succ_of_next {k : Nat} {s t : State} (h : step s = .next t) :
    core.run (k + 1) s = core.run k t := by
  have h' : core.step s = .next t := h
  simp only [Host.Core.run, h']

theorem transact_block {s t : State} {f : Lut → Request → Except Fault Response}
    (h : transact s f = .next t) : t.block = s.block := by
  obtain ⟨q, rest, l, r, -, -, -, rfl⟩ := transact_eq_next h
  rfl

theorem serve_block {s t : State} (h : serve s = .next t) : t.block = s.block := by
  rcases serve_eq_next h with ⟨rfl, -⟩ | ⟨q, rest, l, r, -, -, -, rfl, -⟩ <;> rfl

theorem deliverOn_block {s t : State} {port : Nat} (h : deliverOn s port = .next t) : t.block = s.block := by
  rcases deliverOn_eq_next h with rfl | ⟨_, _, _, _, _, _, _, _, _, _, rfl⟩ <;> rfl

theorem move_block {m : Move} {s t : State} (h : move m s = .next t) : t.block = s.block := by
  cases m with
  | issue q => cases h; rfl
  | driveRspReady port level => cases h; simp
  | driveRst level => cases h; cases level <;> rfl
  | serve => exact serve_block h
  | deliver port => exact deliverOn_block h
  | cycle => cases h; simp

/-- The canonical form of both ROMs is kept by every step (no step writes a ROM, R43). -/
theorem step_keeps_wf {s t : State} (h : step s = .next t) (hwf : s.block.wf = true) :
    t.block.wf = true := by
  suffices e : t.block = s.block by rw [e]; exact hwf
  rcases step_cases s with ⟨-, e | ⟨p, e⟩ | e⟩ | ⟨m, rest, -, e⟩ <;> rw [e] at h
  · exact serve_block h
  · exact deliverOn_block h
  · cases h; simp
  · exact move_block (s := { s with agenda := rest }) h

/-- Memory is in canonical form right after reset. -/
theorem reset_wf : State.reset.block.wf = true := by
  simpa [State.reset, Block.wf, Lut.ofProfile] using romImage_wf .r64

theorem run_add {m n : Nat} {s t : State} (h : core.run m s = .next t) : core.run (m + n) s = core.run n t := by
  induction m generalizing s with
  | zero => have : s = t := by simp only [Host.Core.run] at h; exact Host.Outcome.next.inj h
            rw [this, Nat.zero_add]
  | succ m ih =>
    rw [show m + 1 + n = (m + n) + 1 by omega]
    simp only [Host.Core.run] at h ⊢
    cases hs : core.step s with
    | next s' => rw [hs] at h; exact ih h
    | fault r => rw [hs] at h; cases h
    | refused r => rw [hs] at h; cases h

end Sys2Proof.Machine
end

