-- ==== Sys2Proof/Tests/Slice0.lean ====
section
/-! SUPPORT. Own tests: ill-formed terms, command words, one-step tests and witnesses of hypotheses.
Expected values are those of spec/30_encoding.md R63-R67 and of spec/95_test_vectors.md, whose row each
test names (`V 2.4/12` is row 12 of its section 2.4, `W5` a row of its section 1). -/

namespace Sys2Proof.Tests

open Sys2Proof Sys2Proof.Machine

/- The kernel checks these tests one at a time, and elaborated in parallel each would hold a thread's whole
stack while it waits for its turn. -/
set_option Elab.async false

/-! ### Helpers -/

/-- The machine after reset, of profile `p`, with these requests presented. -/
def testState (p : Profile) (requests : List PortRequest) : State :=
  { State.reset with block := .admitted (Lut.ofProfile p), requests := requests }

/-- The code units of an ASCII text. -/
def codes (text : String) : List Byte := text.toList.map fun c => BitVec.ofNat 8 c.toNat

/-- The request of a line of R72. -/
def lineOf (text : String) : Option Request :=
  match parseLine text.toList with
  | some (some line) => assemble line
  | _ => none

/-- The response to a line of R72 after one step, and whether it is on the request's port. -/
def answer (p : Profile) (text : String) : Option Response :=
  match lineOf text with
  | none => none
  | some q =>
    match step (testState p [⟨3, q⟩]) with
    | .next t => if t.requests = [] then t.inFlight.head?.map fun a => a.rsp else none
    | _ => none

/-- An OK response with a string. -/
def okText (text : String) : Option Response :=
  some { zeroResponse with
    lenOut := BitVec.ofNat 4 (codes text).length, strOut := slotsOf (codes text) }

/-- An OK response with a number. -/
def okValue (v : Nat) : Option Response := some { zeroResponse with valOut := BitVec.ofNat 64 v }

/-- A request with a string of `len` code units. -/
def textRequest (cmd : BitVec 8) (len : Nat) (text : String) : Request :=
  { zeroRequest with cmd := cmd, lenIn := BitVec.ofNat 32 len, strIn := slotsOf (codes text) }

/-- A request with a number. -/
def valueRequest (cmd : BitVec 8) (v : Nat) : Request :=
  { zeroRequest with cmd := cmd, valIn := BitVec.ofNat 64 v }

/-! ### Ill-formed terms are refused -/

theorem test_reservedBits_refused : Command.wellFormed ⟨0b0001, 0b000, 0⟩ = false := by decide
theorem test_reservedFunctions_refused :
    Command.wellFormed ⟨0, 0b101, 0⟩ = false ∧ Command.wellFormed ⟨0, 0b111, 1⟩ = false := by decide
theorem test_width_refused :
    Command.wellFormed ⟨0, 0b011, 1⟩ = false ∧ Command.wellFormed ⟨0, 0b100, 1⟩ = false := by decide

theorem test_line_without_number_refused :
    AsmLine.wellFormed (.number .pol32 5) = false ∧ AsmLine.wellFormed (.bare .encp32) = false := by decide
theorem test_line_number_too_wide_refused :
    AsmLine.wellFormed (.number .encp64 (2 ^ 64)) = false ∧
    AsmLine.wellFormed (.text .dec32 (some (2 ^ 32)) none) = false ∧
    AsmLine.wellFormed (.raw 256 none none none) = false := by decide +kernel
theorem test_line_text_of_wrong_mnemonic_refused :
    AsmLine.wellFormed (.text .encp32 none (some [])) = false ∧
    AsmLine.wellFormed (.text .dec32 none none) = false := by decide
theorem test_line_twelve_code_units_refused :
    AsmLine.wellFormed (.text .dec64 none (some (List.replicate 12 0x2D))) = false ∧
    AsmLine.wellFormed (.raw 4 none none (some (List.replicate 12 0x2D))) = false := by decide

/-- R28: one alphabet for each of the five checks that it breaks. -/
theorem test_bad_alphabets_refused :
    alphabetComplete 64 (romImage (Profile.alphabet .r64).dropLast) = false ∧
    alphabetAscending [(0, 0x2D), (1, 0x2E), (2, 0x2E)] = false ∧
    alphabetPrintable [(0, 0x20)] = false ∧ alphabetStarts [(0, 0x2E), (1, 0x2D)] = false ∧
    radixLongEnough 40 = false ∧ radixLongEnough 57 = true := by decide +kernel
theorem test_wrong_rom_contents_refused :
    alphabetValid 66 (romImage (Profile.alphabet .r64)) = false ∧
    alphabetValid 64 (romImage (Profile.alphabet .r66)) = false := by decide +kernel

/-! ### Command words, written out from R63, R64 and R66 -/

theorem test_decode_encoder_words :
    decode 0b00000000#8 = .ok .encp32 ∧ decode 0b00000001#8 = .ok .encp64 ∧
    decode 0b00000010#8 = .ok .encu32 ∧ decode 0b00000011#8 = .ok .encu64 := ⟨rfl, rfl, rfl, rfl⟩
theorem test_decode_decoder_words :
    decode 0b00000100#8 = .ok .dec32 ∧ decode 0b00000101#8 = .ok .dec64 := ⟨rfl, rfl⟩
theorem test_decode_lut_words :
    decode 0b00000110#8 = .ok .lutv2c ∧ decode 0b00001000#8 = .ok .lutc2v := ⟨rfl, rfl⟩
theorem test_decode_policy_words :
    decode 0b00001100#8 = .ok .pol32 ∧ decode 0b00001101#8 = .ok .pol64 := ⟨rfl, rfl⟩
theorem test_decode_illegal_words :
    decode 0b00000111#8 = .error .widthNotAllowed ∧ decode 0b00001110#8 = .error .reservedFunction ∧
    decode 0b10000000#8 = .error .reservedBits := ⟨rfl, rfl, rfl⟩
theorem test_table_word_lengths :
    decodeTableWord 8 0x0D = some .pol64 ∧ decodeTableWord 8 0x0E = none ∧
    decodeTableWord 16 0x0D = none := by decide

/-! ### One step of each operation -/

/-- V 2.4/8, 2.4/12, 2.4/13. -/
theorem test_encp32 :
    answer .r64 "ENCP32 0xffffffff" = okText "1zzzzz" ∧ answer .r66 "ENCP32 0x3fffffff" = okText "-r_oBV" ∧
    answer .r66 "ENCP32 0x100000000" =
      some { zeroResponse with status := 5, errVal := 4294967296, errMaxval := 4294967295 } := by
  decide +kernel

/-- V 2.5/9, 2.5/11. -/
theorem test_encp64 :
    answer .r64 "ENCP64 0xffffffffffffffff" = okText "Dzzzzzzzzzz" ∧
    answer .r66 "ENCP64 0x8000000000000000" = okText "3t7_poBA~G6" := by decide +kernel

/-- V 2.6/1, 2.6/8, 2.6/9. -/
theorem test_encu32 :
    answer .r64 "ENCU32 0" = okText "" ∧ answer .r64 "ENCU32 4096" = okText ".--" ∧
    answer .r66 "ENCU32 0x40000000" = okText "r_oBW" := by decide +kernel

/-- V 2.6/11: the range check comes before stripping. -/
theorem test_encu32_range :
    answer .r64 "ENCU32 0x100000000" =
      some { zeroResponse with status := 5, errVal := 4294967296, errMaxval := 4294967295 } := by
  decide +kernel

/-- V 2.7/1, 2.7/6, 2.7/8. -/
theorem test_encu64 :
    answer .r64 "ENCU64 0" = okText "" ∧ answer .r64 "ENCU64 0x100000000" = okText "2-----" ∧
    answer .r66 "ENCU64 0x1000000000000000" = okText "jWB4r7uMeW" := by decide +kernel

/-- W5', W6', W5, W6. -/
theorem test_dec32_bounds :
    answer .r64 "DEC32 \"1zzzzz\"" = okValue 4294967295 ∧
    answer .r64 "DEC32 \"2-----\"" =
      some { zeroResponse with status := 3, errVal := 4294967296, errMaxval := 4294967295 } ∧
    answer .r66 "DEC32 \"1QLCp1\"" = okValue 4294967295 ∧
    answer .r66 "DEC32 \"1QLCp2\"" =
      some { zeroResponse with status := 3, errVal := 4294967296, errMaxval := 4294967295 } := by
  decide +kernel

/-- W9, R156, and R203: the length is checked before the characters, the leftmost character first. -/
theorem test_dec32_causes :
    answer .r64 "DEC32 \"INVALID!\"" = some { zeroResponse with status := 2, errLen := 8, errMax := 6 } ∧
    answer .r64 "DEC32 \"\"" = some { zeroResponse with status := 4 } ∧
    answer .r64 "DEC32 \"zz_z!z\"" = some { zeroResponse with status := 1, errPos := 2, errChar := 0x5F } ∧
    answer .r66 "DEC32 \"zz_z!z\"" = some { zeroResponse with status := 1, errPos := 4, errChar := 0x21 } := by
  decide +kernel

/-- W7, W8. -/
theorem test_dec64_bounds :
    answer .r66 "DEC64 \"9lH9ebONzYD\"" = okValue 18446744073709551615 ∧
    answer .r66 "DEC64 \"9lH9ebONzYE\"" =
      some { zeroResponse with
        status := 3, errVal := 18446744073709551616, errMaxval := 18446744073709551615 } ∧
    answer .r64 "DEC64 \"9lH9ebONzYD\"" = okValue 13570241409246034191 := by decide +kernel

/-- W14: eleven largest digits need 66 bits of the accumulator; R74: a length above 11 needs no slots. -/
theorem test_dec64_causes :
    answer .r64 "DEC64 \"zzzzzzzzzzz\"" =
      some { zeroResponse with
        status := 3, errVal := 73786976294838206463, errMaxval := 18446744073709551615 } ∧
    answer .r64 "DEC64 len=4294967295" =
      some { zeroResponse with status := 2, errLen := 4294967295, errMax := 11 } := by decide +kernel

/-- V 2.1/7, 2.1/12, 2.1/13, 2.1/15. -/
theorem test_lutv2c :
    answer .r64 "LUTV2C 38" =
      some { zeroResponse with valOut := 0x61, lenOut := 1, strOut := slotsOf [0x61] } ∧
    answer .r66 "LUTV2C 65" =
      some { zeroResponse with valOut := 0x7E, lenOut := 1, strOut := slotsOf [0x7E] } ∧
    answer .r66 "LUTV2C 66" = some { zeroResponse with status := 6, errVal := 66, errMax := 66 } ∧
    answer .r64 "LUTV2C 0xffffffffffffffff" =
      some { zeroResponse with status := 6, errVal := 18446744073709551615, errMax := 64 } := by
  decide +kernel

/-- V 2.2/7, 2.2/10, 2.2/21: 301 is 0x12D, whose low byte is the code of `-`. -/
theorem test_lutc2v :
    answer .r64 "LUTC2V '_'" = some { zeroResponse with status := 7, errVal := 95 } ∧
    answer .r66 "LUTC2V '_'" = okValue 38 ∧ answer .r66 "LUTC2V '~'" = okValue 65 ∧
    answer .r64 "LUTC2V 301" = some { zeroResponse with status := 7, errVal := 301 } := by decide +kernel

/-- V 2.3/1, 2.3/3. -/
theorem test_pol32 :
    answer .r64 "POL32" = some { zeroResponse with valOut := 4294967295, lenOut := 6 } ∧
    answer .r66 "RAW 0x0C val=12345 len=3 str=\"abc\"" =
      some { zeroResponse with valOut := 4294967295, lenOut := 6 } := by decide +kernel

/-- V 2.3/2. -/
theorem test_pol64 :
    answer .r66 "POL64" = some { zeroResponse with valOut := 18446744073709551615, lenOut := 11 } := by
  decide +kernel

/-- R206: one word of each kind of illegal command. -/
theorem test_illegal_commands :
    answer .r64 "RAW 0x07 val=5 len=1 str=\"a\"" = some { zeroResponse with status := 8 } ∧
    answer .r64 "RAW 0x0A" = some { zeroResponse with status := 8 } ∧
    answer .r66 "RAW 255" = some { zeroResponse with status := 8 } := by decide +kernel

/-! ### The text of a line (R72) -/

theorem test_line_escapes_and_comments :
    lineOf "  DEC64 \"a\\\"\\\\\\x7f; ' \" ; comment" = none ∧
    lineOf "DEC64 len=7 \"a\\\"\\\\\\x7f;'\" ; comment" =
      some { textRequest 5 7 "a\"\\" with strIn := slotsOf [0x61, 0x22, 0x5C, 0x7F, 0x3B, 0x27] } ∧
    parseLine "; only a comment".toList = some none := by decide +kernel
theorem test_line_refusals :
    lineOf "ENCP32" = none ∧ lineOf "ENCP32 1 2" = none ∧ lineOf "ENCP32 'a'" = none ∧
    lineOf "DEC32" = none ∧ lineOf "POL32 1" = none ∧ lineOf "NOP" = none ∧
    lineOf "DEC64 \"------------\"" = none ∧ lineOf "LUTC2V ';'" = some (valueRequest 8 0x3B) := by
  decide +kernel

/-- R72: `len_in` of a RAW line without `len=` is the number of code units in its literal, 0 without one. -/
theorem test_raw_line_length :
    lineOf "RAW 4 str=\".-\"" = some (textRequest 4 2 ".-") ∧
    lineOf "RAW 4 len=1 str=\".-\"" = some (textRequest 4 1 ".-") ∧
    lineOf "RAW 4" = some (textRequest 4 0 "") := by decide +kernel

/-- Log 9: what `'<char>'` admits. -/
theorem test_char_literal :
    lineOf "LUTC2V '''" = some (valueRequest 8 0x27) ∧ lineOf "LUTC2V '\\'" = some (valueRequest 8 0x5C) ∧
    lineOf "LUTC2V ' '" = none ∧ lineOf "LUTC2V '\\x41'" = none := by decide +kernel

/-! ### Packing (R45), reset, channels -/

theorem test_packing :
    packSlots (slotsOf (codes "ab")) = 0x6261#88 ∧ unpackSlots 0x6261#88 = slotsOf (codes "ab") := by
  decide +kernel

theorem test_reset_idles : step State.reset = .next State.reset := rfl

/-- R26, R41, R42: what the ROMs of a state after reset read as. -/
theorem test_reset_roms :
    State.reset.v2cEntry 63 = some 0x7A ∧ State.reset.v2cEntry 64 = none ∧
    readC2V (Lut.ofProfile .r64) 0x7A = ⟨true, 63⟩ ∧ readC2V (Lut.ofProfile .r64) 0x5F = ⟨false, 0⟩ ∧
    readC2V (Lut.ofProfile .r66) 0x5F = ⟨true, 38⟩ := by decide +kernel

/-- The outcome's state, if it is a next state. -/
def nextOf : Outcome → Option State
  | .next t => some t
  | .fault _ => none
  | .refused _ => none

/-- Two ports with responses in flight, the first of port 1 `age` cycles old; ready on port 1 only. -/
def busyAt (age : Nat) : State :=
  { testState .r66 [⟨0, valueRequest 0x0C 0⟩] with
    inFlight := [⟨⟨0, finishValue 5⟩, 0, 9⟩, ⟨⟨1, finishString [0x2D]⟩, 1, age⟩,
      ⟨⟨0, raiseEmptyInput⟩, 2, 0⟩, ⟨⟨1, raiseIllegalOp⟩, 3, 0⟩]
    rspReady := [1]
    delivered := [⟨1, raiseNotFound 7⟩]
    accepted := 4 }

/-- Two ports with responses in flight, ready on port 1 only. -/
def busyState : State := busyAt 2

/-- R246, R247: the oldest of the port goes first, once its latency is over; a port that is not ready keeps
its response. -/
theorem test_deliver {age : Nat} (h : Config.latency 1 ≤ age) :
    deliverOn (busyAt age) 1 =
      .next { busyAt age with
        inFlight := [⟨⟨0, finishValue 5⟩, 0, 9⟩, ⟨⟨0, raiseEmptyInput⟩, 2, 0⟩, ⟨⟨1, raiseIllegalOp⟩, 3, 0⟩]
        delivered := [⟨1, raiseNotFound 7⟩, ⟨1, finishString [0x2D]⟩] } ∧
    deliverOn (busyAt age) 0 = .next (busyAt age) := by
  have hv : (busyAt age).rspValid 1 = true := by
    rw [rspValid_of_oldestOn (a := ⟨⟨1, finishString [0x2D]⟩, 1, age⟩) rfl]
    simpa [InFlight.latencyOver, busyAt, testState, State.reset] using h
  have h0 : (busyAt age).rspReadyOn 0 = false := rfl
  refine ⟨?_, by simp [deliverOn, h0]⟩
  rw [deliverOn, hv]
  rfl

/-- R247, R249: before its latency is over the response of a ready port is held, and a cycle makes it older. -/
theorem test_not_valid_yet {age : Nat} (h : age < Config.latency 1) :
    (busyAt age).rspValid 1 = false ∧ deliverOn (busyAt age) 1 = .next (busyAt age) ∧
    (passCycle (busyAt age)).inFlight = [⟨⟨0, finishValue 5⟩, 0, 10⟩, ⟨⟨1, finishString [0x2D]⟩, 1, age + 1⟩,
      ⟨⟨0, raiseEmptyInput⟩, 2, 1⟩, ⟨⟨1, raiseIllegalOp⟩, 3, 1⟩] := by
  have hv : (busyAt age).rspValid 1 = false := by
    rw [rspValid_of_oldestOn (a := ⟨⟨1, finishString [0x2D]⟩, 1, age⟩) rfl]
    simpa [InFlight.latencyOver] using fun _ => h
  exact ⟨hv, by simp [deliverOn, hv], rfl⟩

/-- R241, R242: asserting `rst` drops what is in flight and blocks both channels. -/
theorem test_reset_input :
    nextOf (step { busyState with agenda := [.driveRst true] }) =
      some { busyState with rst := true, inFlight := [] } ∧
    nextOf (serve (driveRst busyState true)) = some (driveRst busyState true) := by decide +kernel

/-- An R64 unit whose ROM_V2C lacks its last character. -/
def wrongAlphabet : Lut :=
  { Lut.ofProfile .r64 with romV2C := romImage (Profile.alphabet .r64).dropLast }

/-- An R66 unit whose ROM_C2V has the digit 66 at `~`, which no R66 core holds. -/
def wrongInverse : Lut :=
  { profile := .r66, romV2C := romImage (Profile.alphabet .r66),
    romC2V := (inverseImage 7 (romImage (Profile.alphabet .r66))).map fun e =>
      if e.1 = 0x7E then (0x7E, ⟨true, 66⟩) else e }

/-- R5, R26, R42, R48: a ROM_C2V read gives a digit of 6 bits in R64 and of 7 bits in R66. -/
theorem test_digit_widths (c : Byte) :
    (readC2V (Lut.ofProfile .r64) c).digit.toNat < 2 ^ 6 ∧ (readC2V (Lut.ofProfile .r66) c).digit.toNat < 2 ^ 7 :=
  ⟨(readC2V (Lut.ofProfile .r64) c).digit.isLt, (readC2V (Lut.ofProfile .r66) c).digit.isLt⟩

/-- A response with a reserved status, its latency over. -/
def reservedState : State :=
  { busyState with inFlight := [⟨⟨1, { zeroResponse with status := 9 }⟩, 3, Config.latency 3⟩] }

theorem reservedState_valid : reservedState.rspValid 1 = true := by
  rw [rspValid_of_oldestOn (a := ⟨⟨1, { zeroResponse with status := 9 }⟩, 3, Config.latency 3⟩) rfl]
  simp [InFlight.latencyOver, reservedState, busyState, busyAt, testState, State.reset]

/-- 93_implementation_defined.md I1, I12 and I13, R5, R26: the stops. -/
theorem test_stops :
    deliverOn reservedState 1 = .fault (.reservedStatus 9) ∧
    readV2C (Lut.ofProfile .r64) 64 = .error (.romV2CNoEntry 64) ∧
    exec .pol32 { busyState with block := .other 0 } = .refused .profileNotAdmitted ∧
    exec .pol32 { busyState with block := .admitted wrongAlphabet } = .refused .alphabetInvalid ∧
    exec .pol32 { busyState with block := .admitted wrongInverse } = .refused .inverseInvalid ∧
    exec .pol32 State.reset = .refused .noRequest :=
  ⟨by rw [deliverOn, reservedState_valid]; rfl, rfl, rfl, rfl, rfl, rfl⟩

/-! ### Witnesses: each names the statement whose hypotheses it meets -/

theorem testState_lut (p : Profile) (rs : List PortRequest) : (testState p rs).lut = .ok (Lut.ofProfile p) :=
  lut_eq_ok.2 ⟨rfl, Lut.ofProfile_valid p⟩

theorem testState_presents (p : Profile) (q : PortRequest) (rest : List PortRequest) :
    (testState p (q :: rest)).Presents q rest := rfl

/-- EveryStepKeepsTheInvariant, NoStopUnderTheInvariant: a busy R66 machine, with and without a schedule. -/
theorem witness_invariant :
    State.Inv busyState ∧ State.Inv { busyState with rst := true, inFlight := [], agenda := [.serve] } ∧
    (nextOf (step busyState)).isSome = true ∧
    (nextOf (step { busyState with agenda := [.cycle, .driveRst true] })).isSome = true :=
  ⟨⟨⟨.r66, rfl⟩, by decide, by decide, by decide +kernel, by decide +kernel⟩,
    ⟨⟨.r66, rfl⟩, by decide, by decide, by decide, by decide +kernel⟩,
    by decide +kernel, by decide +kernel⟩

/-- IllegalCommandAnswersIllegalOp, StepAnswersAnIllegalCommand, UnreadFieldsDoNotMatter (second clause): the ends of the three kinds. -/
theorem witness_illegal_command :
    ∀ c ∈ [0x07#8, 0x09, 0x0A, 0x0F, 0x10, 0xFF],
      (testState .r64 [⟨3, valueRequest c 5⟩]).agenda = [] ∧
      (testState .r64 [⟨3, valueRequest c 5⟩]).rst = false ∧
      (∃ e, decode (valueRequest c 5).cmd = .error e) ∧
      (testState .r64 [⟨3, valueRequest c 5⟩]).Presents ⟨3, valueRequest c 5⟩ [] := by
  intro c hc
  refine ⟨rfl, rfl, ?_, rfl⟩
  simp only [List.mem_cons, List.not_mem_nil, or_false] at hc
  rcases hc with rfl | rfl | rfl | rfl | rfl | rfl <;> exact ⟨_, rfl⟩

/-- StepRunsTheDecodedCommand: with an empty agenda, and with a request transfer next. -/
theorem witness_step_runs (i : Instr) :
    (testState .r66 [⟨0, valueRequest (encode i) 1⟩]).rst = false ∧
    (testState .r66 [⟨0, valueRequest (encode i) 1⟩]).Presents ⟨0, valueRequest (encode i) 1⟩ [] ∧
    decode (valueRequest (encode i) 1).cmd = .ok i ∧
    (testState .r66 [⟨0, valueRequest (encode i) 1⟩]).agenda = [] ∧
    { testState .r66 [⟨0, valueRequest (encode i) 1⟩] with agenda := [.serve, .deliver 0] }.agenda =
      .serve :: [.deliver 0] :=
  ⟨rfl, rfl, by cases i <;> rfl, rfl, rfl⟩

/-- RomV2CReadsBelowRadixOnly, DigitOrderIsCodeOrder, RomsAreInverse: at the ends of both digit ranges. -/
theorem witness_rom_reads :
    (readV2C (Lut.ofProfile .r64) 0 = .ok 0x2D ∧ readV2C (Lut.ofProfile .r64) 63 = .ok 0x7A ∧ 63 < (Lut.ofProfile .r64).radix ∧
      (Lut.ofProfile .r64).radix ≤ 64) ∧
    (readV2C (Lut.ofProfile .r66) 65 = .ok 0x7E ∧ 65 < (Lut.ofProfile .r66).radix ∧ (Lut.ofProfile .r66).radix ≤ 66) ∧
    (readC2V (Lut.ofProfile .r66) 0x7E).found = true ∧ (readC2V (Lut.ofProfile .r64) 0x7E).found = false :=
  ⟨⟨rfl, rfl, by decide, by decide⟩, ⟨rfl, by decide, by decide⟩, by decide +kernel, by decide +kernel⟩

/-- The hypotheses that the statements of one operation share: a unit and a request presented. This alone is
what PolicyQueriesAnswerConstants, Encp64WritesElevenDigits, Encu64StripsLeadingZeroDigits,
StatusesByOperation, DecoderAcceptsExactly and WidthsDecodeConsistently assume. -/
theorem witness_presented (p : Profile) (q : Request) :
    (testState p [⟨3, q⟩]).lut = .ok (Lut.ofProfile p) ∧ (testState p [⟨3, q⟩]).Presents ⟨3, q⟩ [] :=
  ⟨testState_lut .., rfl⟩

/-- Lutv2cReadsOrRejectsADigit: the last digit and the first value past it (beside `witness_presented`). -/
theorem witness_lutv2c :
    (valueRequest 6 63).valIn.toNat < (Lut.ofProfile .r64).radix ∧ (Lut.ofProfile .r64).radix ≤ (valueRequest 6 64).valIn.toNat ∧
    (valueRequest 6 65).valIn.toNat < (Lut.ofProfile .r66).radix ∧ (Lut.ofProfile .r66).radix ≤ (valueRequest 6 66).valIn.toNat := by
  decide

/-- Lutc2vFindsOrMissesACharacter: found, not found up to 0xFF, and 0x100. -/
theorem witness_lutc2v :
    ((valueRequest 8 0x7A).valIn.toNat ≤ 0xFF ∧
      (readC2V (Lut.ofProfile .r64) ((valueRequest 8 0x7A).valIn.setWidth 8)).found = true) ∧
    ((valueRequest 8 0xFF).valIn.toNat ≤ 0xFF ∧
      (readC2V (Lut.ofProfile .r64) ((valueRequest 8 0xFF).valIn.setWidth 8)).found = false) ∧
    0xFF < (valueRequest 8 0x100).valIn.toNat := by decide +kernel

/-- DigitExpansionIsExact: the largest value of each policy, and its last digit. -/
theorem witness_digits :
    (∀ w ∈ [Policy.w32, Policy.w64], w.maxValue ≤ w.maxValue ∧ w.maxLen - 1 < w.maxLen ∧
      (BitVec.ofNat 64 w.maxValue).toNat ≤ w.maxValue) ∧ (0xFFFFFFFF#64).toNat ≤ 0xFFFFFFFF := by decide

/-- Encp32WritesSixDigitsOrRejects, Encu32StripsLeadingZeroDigits: `MAX32` and `MAX32 + 1`; and 0, of which
every digit is stripped. -/
theorem witness_encode32 :
    (valueRequest 0 0xFFFFFFFF).valIn.toNat ≤ 0xFFFFFFFF ∧ 0xFFFFFFFF < (valueRequest 0 0x100000000).valIn.toNat ∧
    (valueRequest 2 0).valIn.toNat ≤ 0xFFFFFFFF := by decide

/-- PaddedRoundTrip, UnpaddedRoundTrip: the largest value of each policy, encoded, and the decode request of
the response. -/
theorem witness_round_trip (p : Profile) (w : Policy) (i : Instr) (hi : i = encpOf w ∨ i = encuOf w) :
    1 ≤ (valueRequest (encode i) w.maxValue).valIn.toNat ∧
    (valueRequest (encode i) w.maxValue).valIn.toNat ≤ w.maxValue ∧
    ∃ r q', exec i (testState p [⟨3, valueRequest (encode i) w.maxValue⟩]) =
        .next ((testState p [⟨3, valueRequest (encode i) w.maxValue⟩]).respond 3 r []) ∧
      (testState p [⟨4, q'⟩]).lut = .ok (Lut.ofProfile p) ∧ (testState p [⟨4, q'⟩]).Presents ⟨4, q'⟩ [] ∧
      q'.lenIn = r.lenOut.setWidth 32 ∧ q'.strIn = r.strOut := by
  refine ⟨by cases w <;> simp [valueRequest, Policy.maxValue], by cases w <;> simp [valueRequest, Policy.maxValue],
    ?_⟩
  obtain ⟨r, hr⟩ := responseOf_ok i (Lut.ofProfile_valid p).1 (valueRequest (encode i) w.maxValue)
  exact ⟨r, { zeroRequest with lenIn := r.lenOut.setWidth 32, strIn := r.strOut },
    exec_of_presents (testState_presents ..) (testState_lut ..) hr, testState_lut .., rfl, rfl, rfl⟩

/-- PaddedStringsSortLikeValues, UnpaddedIsPaddedStripped, UnpaddedLengthIsLeast: two neighbouring values at
the top of each policy's range, both encoded. -/
theorem witness_sort (p : Profile) (w : Policy) (i : Instr) :
    (valueRequest (encode i) (w.maxValue - 1)).valIn.toNat < (valueRequest (encode i) w.maxValue).valIn.toNat ∧
    (valueRequest (encode i) w.maxValue).valIn.toNat ≤ w.maxValue ∧
    ∀ v ∈ [w.maxValue - 1, w.maxValue], ∃ r,
      exec i (testState p [⟨3, valueRequest (encode i) v⟩]) =
        .next ((testState p [⟨3, valueRequest (encode i) v⟩]).respond 3 r []) := by
  refine ⟨by cases w <;> simp [valueRequest, Policy.maxValue], by cases w <;> simp [valueRequest, Policy.maxValue],
    fun v _ => ?_⟩
  obtain ⟨r, hr⟩ := responseOf_ok i (Lut.ofProfile_valid p).1 (valueRequest (encode i) v)
  exact ⟨r, exec_of_presents (testState_presents ..) (testState_lut ..) hr⟩

/-- UnpaddedZeroIsEmpty: 0, the empty operand, and the operand `-`. -/
theorem witness_unpadded_zero :
    (valueRequest 2 0).valIn = 0 ∧ (textRequest 4 0 "").lenIn = 0 ∧ (textRequest 4 1 "-").lenIn = 1 ∧
    slotAt (textRequest 4 1 "-").strIn 0 = 0x2D := by decide +kernel

/-- UnpaddedIsTheShortest: 4096 and its string with the three `-` that fit before it (R64). -/
theorem witness_shortest :
    (∃ r, exec .encu32 (testState .r64 [⟨3, valueRequest 2 4096⟩]) =
      .next ((testState .r64 [⟨3, valueRequest 2 4096⟩]).respond 3 r [])) ∧
    (∃ r', exec .dec32 (testState .r64 [⟨4, textRequest 4 6 "---.--"⟩]) =
        .next ((testState .r64 [⟨4, textRequest 4 6 "---.--"⟩]).respond 4 r' []) ∧
      r'.status = 0 ∧ r'.valOut = (valueRequest 2 4096).valIn) ∧
    1 ≤ (valueRequest 2 4096).valIn.toNat ∧ (valueRequest 2 4096).valIn.toNat ≤ Policy.maxValue .w32 := by
  obtain ⟨r, hr⟩ := responseOf_ok .encu32 (Lut.ofProfile_valid .r64).1 (valueRequest 2 4096)
  exact ⟨⟨r, exec_of_presents (testState_presents ..) (testState_lut ..) hr⟩,
    ⟨decodeString .w32 (Lut.ofProfile .r64) (textRequest 4 6 "---.--"),
      exec_of_presents (testState_presents ..) (testState_lut ..) rfl, by decide +kernel, by decide +kernel⟩,
    by decide, by decide⟩

/-- Dec32AnswersTheFirstCause: one request for each clause, at the ends of its range (R64). -/
theorem witness_dec32 :
    6 < (textRequest 4 7 "").lenIn.toNat ∧ (textRequest 4 0 "").lenIn = 0 ∧
    ((textRequest 4 6 "zzzzz_").lenIn ≠ 0 ∧ (textRequest 4 6 "zzzzz_").lenIn.toNat ≤ 6 ∧
      5 < (textRequest 4 6 "zzzzz_").lenIn.toNat ∧
      (∀ j, j < 5 → operandFound (Lut.ofProfile .r64) (textRequest 4 6 "zzzzz_") j = true) ∧
      operandFound (Lut.ofProfile .r64) (textRequest 4 6 "zzzzz_") 5 = false) ∧
    ((∀ i, i < 6 → operandFound (Lut.ofProfile .r64) (textRequest 4 6 "1zzzzz") i = true) ∧
      operandValue (Lut.ofProfile .r64) (textRequest 4 6 "1zzzzz") = 0xFFFFFFFF) ∧
    ((∀ i, i < 6 → operandFound (Lut.ofProfile .r64) (textRequest 4 6 "2-----") i = true) ∧
      operandValue (Lut.ofProfile .r64) (textRequest 4 6 "2-----") = 0x100000000) := by decide +kernel

/-- Dec64AnswersTheFirstCause, AccumulatorNeverWraps: the same for DEC64 (R66). -/
theorem witness_dec64 :
    11 < (textRequest 5 12 "").lenIn.toNat ∧ (textRequest 5 0 "").lenIn = 0 ∧
    ((textRequest 5 11 "zzzzzzzzzz!").lenIn ≠ 0 ∧ (textRequest 5 11 "zzzzzzzzzz!").lenIn.toNat ≤ 11 ∧
      (∀ j, j < 10 → operandFound (Lut.ofProfile .r66) (textRequest 5 11 "zzzzzzzzzz!") j = true) ∧
      operandFound (Lut.ofProfile .r66) (textRequest 5 11 "zzzzzzzzzz!") 10 = false) ∧
    ((∀ i, i < 11 → operandFound (Lut.ofProfile .r66) (textRequest 5 11 "9lH9ebONzYD") i = true) ∧
      operandValue (Lut.ofProfile .r66) (textRequest 5 11 "9lH9ebONzYD") = 0xFFFFFFFFFFFFFFFF) ∧
    ((∀ i, i < 11 → operandFound (Lut.ofProfile .r66) (textRequest 5 11 "9lH9ebONzYE") i = true) ∧
      operandValue (Lut.ofProfile .r66) (textRequest 5 11 "9lH9ebONzYE") = 0x10000000000000000) := by decide +kernel

/-- LeadingZeroDigitIsIgnored: five code units, and six, the same with `-` before them; the strings of the
first part decode, those of the second have an invalid character at their ends. -/
theorem witness_leading_zero :
    ((decodeString .w32 (Lut.ofProfile .r64) (textRequest 4 5 "zzzzz")).status ≠ 1 ∧
      (decodeString .w32 (Lut.ofProfile .r64) (textRequest 4 5 "zzzz!")).status = 1 ∧
      (decodeString .w32 (Lut.ofProfile .r64) (textRequest 4 5 "zzzz!")).errPos = 4 ∧
      (decodeString .w32 (Lut.ofProfile .r64) (textRequest 4 6 "-zzzz!")).errPos = 5) ∧
    (∀ i, i < 5 → slotAt (textRequest 4 6 "-zzzz!").strIn (i + 1) = slotAt (textRequest 4 5 "zzzz!").strIn i) ∧
    1 ≤ (textRequest 4 5 "zzzzz").lenIn.toNat ∧ (textRequest 4 5 "zzzzz").lenIn.toNat + 1 ≤ Policy.maxLen .w32 ∧
    (textRequest 4 6 "-zzzzz").lenIn.toNat = (textRequest 4 5 "zzzzz").lenIn.toNat + 1 ∧
    slotAt (textRequest 4 6 "-zzzzz").strIn 0 = 0x2D ∧
    (∀ i, i < 5 → slotAt (textRequest 4 6 "-zzzzz").strIn (i + 1) = slotAt (textRequest 4 5 "zzzzz").strIn i) := by
  decide +kernel

/-- OperationFrame, NoStepWritesARom, PortsAnswerInOrder, WaitingBundlesAreHeldStable: an operation and
steps that answer a next state, with a request presented and a response waiting on port 1. -/
theorem witness_next_states :
    (nextOf (exec .pol32 busyState)).isSome = true ∧ (nextOf (step busyState)).isSome = true ∧
    (∃ t, step { busyAt (Config.latency 1) with agenda := [.deliver 1] } = .next t) ∧
    (nextOf (step { busyState with agenda := [.cycle] })).isSome = true ∧
    (nextOf (step { busyState with agenda := [.driveRst true] })).isSome = true ∧
    busyState.Presents ⟨0, valueRequest 0x0C 0⟩ [] ∧
    ∃ others, oldestOn 1 busyState.inFlight = some (⟨⟨1, finishString [0x2D]⟩, 1, 2⟩, others) :=
  ⟨by decide +kernel, by decide +kernel, ⟨_, (test_deliver (Nat.le_refl _)).1⟩, by decide +kernel,
    by decide +kernel, rfl, _, rfl⟩

/-- ResponseBecomesValidAfterItsLatency: the oldest response of port 1, behind one of port 0; an operation; and
a cycle scheduled. `test_deliver` and `test_not_valid_yet` have its latency over and not over. -/
theorem witness_latency :
    busyState.rst = false ∧
    (∃ others, oldestOn 1 busyState.inFlight = some (⟨⟨1, finishString [0x2D]⟩, 1, 2⟩, others)) ∧
    (nextOf (exec .pol32 busyState)).isSome = true ∧
    { busyState with agenda := [.cycle] }.agenda = .cycle :: [] :=
  ⟨rfl, ⟨_, rfl⟩, by decide +kernel, rfl⟩

/-- ResponseDependsOnTheRequestOnly, UnreadFieldsDoNotMatter: two different machines of one profile that
present the same request on different ports; and requests that agree on the fields each operation reads
only. -/
theorem witness_two_machines :
    busyState.RomsHoldProfile ∧
    State.RomsHoldProfile { testState .r66 [⟨9, valueRequest 0x0C 0⟩] with delivered := [⟨0, finishValue 1⟩] } ∧
    busyState.lut = .ok (Lut.ofProfile .r66) ∧
    { testState .r66 [⟨9, valueRequest 0x0C 0⟩] with delivered := [⟨0, finishValue 1⟩] }.lut = .ok (Lut.ofProfile .r66) ∧
    busyState.Presents ⟨0, valueRequest 0x0C 0⟩ [] ∧
    { testState .r66 [⟨9, valueRequest 0x0C 0⟩] with delivered := [⟨0, finishValue 1⟩] }.Presents
      ⟨9, valueRequest 0x0C 0⟩ [] ∧
    agreeOnReadFields (textRequest 4 6 "zzzzzz!") { textRequest 4 6 "zzzzzz" with valIn := 7 } .dec32 ∧
    agreeOnReadFields (textRequest 5 12 "a") (textRequest 5 12 "b") .dec64 ∧
    agreeOnReadFields (valueRequest 0 9) { textRequest 0 3 "abc" with valIn := 9 } .encp32 :=
  ⟨⟨.r66, rfl⟩, ⟨.r66, rfl⟩, testState_lut .r66 [], testState_lut .r66 [], rfl, rfl,
    ⟨rfl, fun _ => by decide +kernel⟩,
    ⟨rfl, fun h => absurd h (by decide +kernel)⟩, rfl⟩

/-- BadConfigurationsAreRefused: another PROFILE, a ROM_V2C without its last character, and a ROM_C2V with a
wrong digit. -/
theorem witness_bad_configurations :
    { busyState with block := .other 7 }.block = .other 7 ∧
    { busyState with block := .other 7 }.Presents ⟨0, valueRequest 0x0C 0⟩ [] ∧
    alphabetValid wrongAlphabet.radix wrongAlphabet.romV2C = false ∧
    alphabetValid wrongInverse.radix wrongInverse.romV2C = true ∧
    wrongInverse.romC2V ≠ inverseImage wrongInverse.profile.digitW wrongInverse.romV2C :=
  ⟨rfl, rfl, by decide +kernel, by decide +kernel, by decide +kernel⟩

/-- AssertedResetBlocksTheChannels, AssertingResetDropsWhatIsInFlight, AnswersAreTheSameAfterReset,
MovesDriveOnlyTheirSignals: `rst` asserted with a request waiting, and each schedule. -/
theorem witness_reset :
    { busyState with rst := true }.rst = true ∧
    { busyState with agenda := [.driveRst true, .driveRst false] }.agenda = .driveRst true :: [.driveRst false] ∧
    { busyState with agenda := [.driveRst true, .driveRst false] }.lut = .ok (Lut.ofProfile .r66) ∧
    { busyState with agenda := [.driveRst true, .driveRst false] }.Presents ⟨0, valueRequest 0x0C 0⟩ [] ∧
    { busyState with agenda := [.driveRspReady 1 false] }.agenda = .driveRspReady 1 false :: [] ∧
    { busyState with agenda := [.issue ⟨2, zeroRequest⟩] }.agenda = .issue ⟨2, zeroRequest⟩ :: [] ∧
    { busyState with agenda := [.serve] }.agenda = .serve :: [] ∧
    { busyState with agenda := [.cycle] }.agenda = .cycle :: [] :=
  ⟨rfl, rfl, testState_lut .r66 [], rfl, rfl, rfl, rfl, rfl⟩

/-- DeliveryFollowsTheHandshake: port 1 ready, port 0 not, behind a response of another port; with `rst`
asserted; with a reserved status; and with the transfer scheduled. `test_not_valid_yet` has the port not yet
valid. -/
theorem witness_delivery :
    (busyAt (Config.latency 1)).inFlight =
      [⟨⟨0, finishValue 5⟩, 0, 9⟩] ++ ⟨⟨1, finishString [0x2D]⟩, 1, Config.latency 1⟩ ::
        [⟨⟨0, raiseEmptyInput⟩, 2, 0⟩, ⟨⟨1, raiseIllegalOp⟩, 3, 0⟩] ∧
    (∀ b ∈ ([⟨⟨0, finishValue 5⟩, 0, 9⟩] : List InFlight), b.port ≠ 1) ∧
    statusReserved (finishString [0x2D]).status = false ∧
    (busyAt (Config.latency 1)).rspValid 1 = true ∧ (busyAt (Config.latency 1)).rspReadyOn 1 = true ∧
    (busyAt (Config.latency 1)).rspReadyOn 0 = false ∧
    { busyAt (Config.latency 1) with rst := true }.rspValid 1 = false ∧
    statusReserved { zeroResponse with status := 9 }.status = true ∧
    reservedState.rspValid 1 = true ∧ reservedState.rspReadyOn 1 = true ∧
    { busyState with agenda := [.deliver 1] }.agenda = .deliver 1 :: [] := by
  refine ⟨rfl, by decide, by decide, ?_, rfl, rfl, rfl, by decide, reservedState_valid, rfl, rfl⟩
  rw [rspValid_of_oldestOn (a := ⟨⟨1, finishString [0x2D]⟩, 1, Config.latency 1⟩) rfl]
  simp [InFlight.latencyOver, busyAt, testState, State.reset]

/-- EveryRequestIsAnsweredAndDelivered: two requests and one response in flight, both ports ready. -/
theorem witness_delivered :
    State.Inv { testState .r64 [⟨1, valueRequest 0 5⟩, ⟨2, valueRequest 0xFF 5⟩] with
      inFlight := [⟨⟨1, finishValue 5⟩, 0, 0⟩], rspReady := [1, 2], accepted := 1 } ∧
    (∀ q ∈ ([⟨1, valueRequest 0 5⟩, ⟨2, valueRequest 0xFF 5⟩] : List PortRequest), q.port ∈ [1, 2]) ∧
    (∀ a ∈ ([⟨⟨1, finishValue 5⟩, 0, 0⟩] : List InFlight), a.port ∈ [1, 2]) :=
  ⟨⟨⟨.r64, rfl⟩, by decide, by decide, by decide +kernel, by decide⟩, by decide, by decide⟩

/-- AssembledStringIsTheOperand: the largest command and length, 11 and 12 code units. -/
theorem witness_assembled :
    255 < 256 ∧ 4294967295 < 4294967296 ∧
    (codes "Dzzzzzzzzzz").length ≤ 11 ∧ 11 < (codes "Dzzzzzzzzzzz").length :=
  ⟨by decide, by norm_num, by decide +kernel, by decide +kernel⟩

end Sys2Proof.Tests
end

section
/-! PROOFS. The scope family (spec/00_scope.md): a step runs the command it decodes (R8, R65), and a
machine that is no k-hhc core is refused (R5, R28, R26, R224). -/

namespace Sys2Proof.Machine

/-! What a request transfer runs, and when its unit is refused -/

/-- R206: a command that decodes to no operation is answered by `execIllegal`. -/
theorem serve_of_decode_error {s : State} {q rest e} (hr : s.rst = false) (hq : s.Presents q rest)
    (hd : decode q.req.cmd = .error e) : serve s = execIllegal s := by
  simp [serve, fetchCommand_eq hr hq, hd]

/-- R5: a `PROFILE` that is neither R64 nor R66 has no unit. -/
theorem lut_of_other {s : State} {tag : Nat} (hb : s.block = .other tag) :
    s.lut = .error .profileNotAdmitted := by
  simp [State.lut, hb]

/-- R28, R224: a ROM_V2C that breaks an alphabet invariant. -/
theorem lut_of_alphabet_invalid {s : State} {l : Lut} (hb : s.block = .admitted l)
    (hv : alphabetValid l.radix l.romV2C = false) : s.lut = .error .alphabetInvalid := by
  simp [State.lut, hb, hv]

/-- R26, log 3: a ROM_C2V that is not the inverse of a valid ROM_V2C. -/
theorem lut_of_not_inverse {s : State} {l : Lut} (hb : s.block = .admitted l)
    (hv : alphabetValid l.radix l.romV2C = true)
    (hi : l.romC2V ≠ inverseImage l.profile.digitW l.romV2C) : s.lut = .error .inverseInvalid := by
  simp [State.lut, hb, hv, Lut.inverseValid, hi]

theorem exec_of_lut_error {s : State} {q rest why} (i : Instr) (hq : s.Presents q rest)
    (hl : s.lut = .error why) : exec i s = .refused why := by
  rw [exec_eq_transact]; exact transact_of_lut_error hq hl

theorem execIllegal_of_lut_error {s : State} {q rest why} (hq : s.Presents q rest)
    (hl : s.lut = .error why) : execIllegal s = .refused why :=
  transact_of_lut_error hq hl

/-- The request transfer is refused whatever the command is: legal or not, it is one transaction. -/
theorem serve_of_lut_error {s : State} {q rest why} (hr : s.rst = false) (hq : s.Presents q rest)
    (hl : s.lut = .error why) : serve s = .refused why := by
  cases hd : decode q.req.cmd with
  | ok i => rw [serve_of_decode hr hq hd]; exact exec_of_lut_error i hq hl
  | error e => rw [serve_of_decode_error hr hq hd]; exact execIllegal_of_lut_error hq hl

/-! The statements -/

/-- Settles O13: both schedules lead to the request transfer, which runs the decoded operation. -/
theorem stepRunsTheDecodedCommand : Obligations.StepRunsTheDecodedCommand := by
  intro s q rest i hr hq hd
  refine ⟨fun ha => ?_, fun ms ha => ?_⟩
  · rw [step_of_nil ha, autonomous_of_presents hr hq, serve_of_decode hr hq hd]
  · rw [step_of_cons ha]
    exact serve_of_decode (s := { s with agenda := ms }) hr hq hd

/-- Settles O45: each bad configuration gives its own refusal for the unit, and every transaction passes
that refusal on. -/
theorem badConfigurationsAreRefused : Obligations.BadConfigurationsAreRefused := by
  intro s q rest why hq hbad
  have hl : s.lut = .error why := by
    obtain ⟨tag, hb, rfl⟩ | ⟨l, hb, ⟨hv, rfl⟩ | ⟨hv, hi, rfl⟩⟩ := hbad
    · exact lut_of_other hb
    · exact lut_of_alphabet_invalid hb hv
    · exact lut_of_not_inverse hb hv hi
  exact ⟨fun i => exec_of_lut_error i hq hl, execIllegal_of_lut_error hq hl,
    fun hr => serve_of_lut_error hr hq hl⟩

end Sys2Proof.Machine
end

section
/-! PROOFS. The state family (spec/10_state.md): the ROM pair of each profile and of reset (R21, R26, R28,
R30), what an operation and a step leave unchanged (R20, R24, R43), and the invariant. -/

namespace Sys2Proof.Machine

/-! The contents of the ROM pair -/

theorem romImage_map_fst (alphabet : List Byte) :
    (romImage alphabet).map Prod.fst = List.range alphabet.length := by
  simp [romImage, Function.comp_def, List.range_eq_range']

theorem romImage_map_snd (alphabet : List Byte) : (romImage alphabet).map Prod.snd = alphabet := by
  simp [romImage, Function.comp_def]

/-- Cells numbered from `start` on, read at `start + d`. -/
theorem cellAt_zipIdx (alphabet : List Byte) (start d : Nat) :
    cellAt ((alphabet.zipIdx start).map fun e => (e.2, e.1)) (start + d) = alphabet[d]? := by
  induction alphabet generalizing start d with
  | nil => rfl
  | cons c cs ih =>
    cases d with
    | zero => simp [cellAt]
    | succ d =>
      have hne : start ≠ start + (d + 1) := by omega
      have hd : start + (d + 1) = start + 1 + d := by omega
      simp only [List.zipIdx_cons, List.map_cons, cellAt, if_neg hne, List.getElem?_cons_succ]
      rw [hd, ih]

/-- R21: ROM_V2C reads as the alphabet, and has no entry past its end. -/
theorem cellAt_romImage (alphabet : List Byte) (d : Nat) :
    cellAt (romImage alphabet) d = alphabet[d]? := by
  simpa [romImage] using cellAt_zipIdx alphabet 0 d

/-- R28 item 1. -/
theorem alphabet_length (p : Profile) : p.alphabet.length = p.radix := by
  obtain ⟨hcomplete, -⟩ := (alphabetValid_iff _ _).1 (alphabetValid_profile p)
  simpa [romImage_map_fst] using congrArg List.length hcomplete

/-- The characters of a profile's unit are those of its alphabet (R21). -/
theorem alphabet_getElem?_eq_some_iff (p : Profile) (d : Nat) (c : Byte) :
    p.alphabet[d]? = some c ↔ d < p.radix ∧ c = (Lut.ofProfile p).char d := by
  have hchar : (Lut.ofProfile p).char d = (p.alphabet[d]?).getD 0 := by
    rw [Lut.char, Lut.ofProfile, cellAt_romImage]
  rw [hchar, ← alphabet_length, List.getElem?_eq_some_iff]
  constructor
  · rintro ⟨hd, rfl⟩
    exact ⟨hd, by simp [hd]⟩
  · rintro ⟨hd, rfl⟩
    exact ⟨hd, by simp [hd]⟩

/-- R26: an entry of the inverse that is not found is the one an unlisted code unit reads as. -/
theorem readC2V_of_not_found {l : Lut} (hl : l.Valid) {c : Byte} (h : (readC2V l c).found = false) :
    readC2V l c = C2VEntry.absent := by
  rw [readC2V, hl.2] at h ⊢
  cases hc : cellAt (inverseImage l.profile.digitW l.romV2C) c.toNat with
  | none => rfl
  | some e =>
    have hf := inverseImage_found (mem_of_cellAt_eq_some hc)
    simp [hc, hf] at h

/-- R26: at the code of character `d`, ROM_C2V reads as found, with digit `d`. -/
theorem readC2V_ofProfile_of_getElem? {p : Profile} {d : Nat} {c : Byte} (h : p.alphabet[d]? = some c) :
    (readC2V (Lut.ofProfile p) c).found = true ∧ (readC2V (Lut.ofProfile p) c).digit.toNat = d :=
  (readC2V_eq_iff (Lut.ofProfile_valid p) c d).2 ((alphabet_getElem?_eq_some_iff p d c).1 h)

/-- R26: at a code unit that is no character of the alphabet, ROM_C2V lists nothing. -/
theorem readC2V_ofProfile_of_not_mem {p : Profile} {c : Byte} (h : c ∉ p.alphabet) :
    readC2V (Lut.ofProfile p) c = C2VEntry.absent := by
  have hl := Lut.ofProfile_valid p
  refine readC2V_of_not_found hl (Bool.eq_false_iff.2 fun hf => h ?_)
  have hd := (readC2V_eq_iff hl c _).1 ⟨hf, rfl⟩
  exact List.mem_of_getElem? ((alphabet_getElem?_eq_some_iff p _ c).2 hd)

/-! The profile and the ROM entries depend on the block alone -/

theorem profile_congr {s t : State} (h : t.block = s.block) : t.profile = s.profile := by
  simp [State.profile, h]

theorem v2cEntry_congr {s t : State} (h : t.block = s.block) (d : Nat) : t.v2cEntry d = s.v2cEntry d := by
  simp [State.v2cEntry, h]

theorem c2vEntry_congr {s t : State} (h : t.block = s.block) (c : Byte) : t.c2vEntry c = s.c2vEntry c := by
  simp [State.c2vEntry, h]

/-- R20, R43: a step leaves the block as it was. -/
theorem step_block {s t : State} (h : step s = .next t) : t.block = s.block := by
  rcases step_cases s with ⟨-, e | ⟨port, e⟩ | e⟩ | ⟨m, rest, -, e⟩ <;> rw [e] at h
  · exact serve_block h
  · exact deliverOn_block h
  · cases h; exact passCycle_block s
  · exact move_block (s := { s with agenda := rest }) h

/-! The invariant, update by update -/

theorem responseWf_raiseIllegalOp (radix : Nat) : responseWf radix raiseIllegalOp = true := rfl

/-- A request is answered only while `rst` is deasserted, so its response may be in flight (R242). -/
theorem respond_keeps_inv {s : State} {r : Response} (h : s.Inv) (hrst : s.rst = false)
    (hr : responseWf s.block.radix r = true) (port : Nat) (rest : List PortRequest) :
    (s.respond port r rest).Inv := by
  obtain ⟨hroms, -, hready, hflight, hdelivered⟩ := h
  refine ⟨hroms, ?_, hready, ?_, hdelivered⟩
  · simp [hrst]
  · intro a ha
    rcases List.mem_append.1 ha with ha | ha
    · exact hflight a ha
    · obtain rfl := List.mem_singleton.1 ha
      exact hr

theorem serve_keeps_inv {s t : State} (h : s.Inv) (hs : serve s = .next t) : t.Inv := by
  obtain ⟨rfl, -⟩ | ⟨q, rest, l, r, hrst, -, hl, rfl, hr⟩ := serve_eq_next hs
  · exact h
  · refine respond_keeps_inv h hrst ?_ q.port rest
    obtain ⟨hblock, hvalid, -⟩ := lut_eq_ok.1 hl
    rw [hblock]
    obtain ⟨i, -, hr⟩ | ⟨-, rfl⟩ := hr
    · exact (responseOf_wf hvalid hr).1
    · exact responseWf_raiseIllegalOp l.radix

/-- A response transfer moves one response from those in flight to those delivered (R247). -/
theorem deliverOn_keeps_inv {s t : State} {port : Nat} (h : s.Inv) (hs : deliverOn s port = .next t) :
    t.Inv := by
  obtain rfl | ⟨a, before, after, hrst, -, hsplit, -, -, -, -, rfl⟩ := deliverOn_eq_next hs
  · exact h
  · obtain ⟨hroms, -, hready, hflight, hdelivered⟩ := h
    rw [hsplit] at hflight
    refine ⟨hroms, ?_, hready, ?_, ?_⟩
    · simp [hrst]
    · intro b hb
      exact hflight b (by simp only [List.mem_append, List.mem_cons] at hb ⊢; tauto)
    · intro b hb
      rcases List.mem_append.1 hb with hb | hb
      · exact hdelivered b hb
      · obtain rfl := List.mem_singleton.1 hb
        exact hflight a (by simp)

/-- A clock cycle changes ages only (R249). -/
theorem passCycle_keeps_inv {s : State} (h : s.Inv) : (passCycle s).Inv := by
  cases hrst : s.rst with
  | true => rw [passCycle_of_rst hrst]; exact h
  | false =>
    rw [passCycle_of_not_rst hrst]
    obtain ⟨hroms, -, hready, hflight, hdelivered⟩ := h
    refine ⟨hroms, ?_, hready, ?_, hdelivered⟩
    · simp [hrst]
    · intro a ha
      obtain ⟨b, hb, rfl⟩ := List.mem_map.1 ha
      exact hflight b hb

/-- A port is listed as ready only if it was not, and taken off the list wherever it is (R247). -/
theorem driveRspReady_nodup {s : State} (h : s.rspReady.Nodup) (port : Nat) (level : Bool) :
    (driveRspReady s port level).rspReady.Nodup := by
  unfold driveRspReady
  split
  · split
    · exact h
    · next hport => exact List.nodup_cons.2 ⟨by simpa using hport, h⟩
  · exact h.filter _

theorem driveRspReady_keeps_inv {s : State} (h : s.Inv) (port : Nat) (level : Bool) :
    (driveRspReady s port level).Inv := by
  obtain ⟨hroms, hrst, hready, hflight, hdelivered⟩ := h
  refine ⟨?_, ?_, driveRspReady_nodup hready port level, ?_, ?_⟩
  · simpa [State.RomsHoldProfile] using hroms
  · simpa using hrst
  · simpa using hflight
  · simpa using hdelivered

/-- Asserting `rst` drops what is in flight (R242); deasserting it drops nothing. -/
theorem driveRst_keeps_inv {s : State} (h : s.Inv) (level : Bool) : (driveRst s level).Inv := by
  obtain ⟨hroms, -, hready, hflight, hdelivered⟩ := h
  cases level with
  | true => exact ⟨hroms, fun _ => driveRst_true_inFlight s, hready, by simp, hdelivered⟩
  | false => exact ⟨hroms, by simp, hready, hflight, hdelivered⟩

theorem move_keeps_inv {m : Move} {s t : State} (h : s.Inv) (hm : move m s = .next t) : t.Inv := by
  cases m with
  | issue q => cases hm; exact h
  | driveRspReady port level => cases hm; exact driveRspReady_keeps_inv h port level
  | driveRst level => cases hm; exact driveRst_keeps_inv h level
  | serve => exact serve_keeps_inv h hm
  | deliver port => exact deliverOn_keeps_inv h hm
  | cycle => cases hm; exact passCycle_keeps_inv h

theorem step_keeps_inv {s t : State} (h : s.Inv) (hs : step s = .next t) : t.Inv := by
  rcases step_cases s with ⟨-, e | ⟨port, e⟩ | e⟩ | ⟨m, rest, -, e⟩ <;> rw [e] at hs
  · exact serve_keeps_inv h hs
  · exact deliverOn_keeps_inv h hs
  · cases hs; exact passCycle_keeps_inv h
  · exact move_keeps_inv (s := { s with agenda := rest }) h hs

/-! The statements -/

/-- Settles O3: whatever a step does, each update it can make keeps the invariant. -/
theorem everyStepKeepsTheInvariant : Obligations.EveryStepKeepsTheInvariant :=
  fun _ _ => step_keeps_inv

/-- Settles O41: an operation that answers is one response appended by `State.respond`. -/
theorem operationFrame : Obligations.OperationFrame := by
  intro i s t h
  obtain ⟨q, rest, l, r, hreq, -, -, rfl⟩ := exec_eq_next h
  have hblock := respond_block s q.port r rest
  exact ⟨⟨q, r, hreq, respond_inFlight s q.port r rest⟩, respond_accepted s q.port r rest,
    profile_congr hblock, v2cEntry_congr hblock, c2vEntry_congr hblock, hblock, rfl, rfl, rfl, rfl⟩

/-- Settles O42: the profile and the ROM entries are those of the block, which no step changes. -/
theorem noStepWritesARom : Obligations.NoStepWritesARom := by
  intro s t h
  have hblock := step_block h
  exact ⟨profile_congr hblock, v2cEntry_congr hblock, c2vEntry_congr hblock, hblock⟩

/-- Settles O1: the block right after reset is the R64 unit, whose ROM pair reads as the alphabet and its
inverse. -/
theorem resetHoldsTheDefaultRoms : Obligations.ResetHoldsTheDefaultRoms := by
  have hv2c : ∀ d, State.reset.v2cEntry d = (Profile.alphabet .r64)[d]? := cellAt_romImage _
  have hc2v : ∀ c, State.reset.c2vEntry c =
      some ((readC2V (Lut.ofProfile .r64) c).found, (readC2V (Lut.ofProfile .r64) c).digit.toNat) :=
    fun _ => rfl
  refine ⟨rfl, fun d _ => hv2c d, fun d hd => ?_, fun d c h => ?_, fun c h => ?_, rfl, rfl⟩
  · rw [hv2c, List.getElem?_eq_none_iff, alphabet_length]
    exact hd
  · obtain ⟨hfound, hdigit⟩ := readC2V_ofProfile_of_getElem? h
    rw [hc2v, hfound, hdigit]
  · rw [hc2v, readC2V_ofProfile_of_not_mem h]
    rfl

/-- Settles O2: the ROM pair is the R64 unit's, and nothing is in flight, delivered or ready. -/
theorem resetMeetsTheInvariant : Obligations.ResetMeetsTheInvariant :=
  ⟨⟨.r64, rfl⟩, fun _ => rfl, List.nodup_nil, List.forall_mem_nil _, List.forall_mem_nil _⟩

/-- Settles O5: the five items of the alphabet check, read off the ROM_V2C of each profile. -/
theorem bothAlphabetsMeetTheInvariants : Obligations.BothAlphabetsMeetTheInvariants := by
  intro p
  obtain ⟨-, hascending, hprintable, ⟨hdash, hdot⟩, hlong⟩ :=
    (alphabetValid_iff _ _).1 (alphabetValid_profile p)
  have hlength := alphabet_length p
  refine ⟨hlength, fun i hi => ?_, fun c hc => ?_, ?_, ?_, hlong⟩
  · have hcodes : (romImage p.alphabet).map (fun cell => cell.2.toNat) = p.alphabet.map BitVec.toNat := by
      conv_rhs => rw [← romImage_map_snd p.alphabet, List.map_map]
      rfl
    rw [hcodes, List.pairwise_map, List.pairwise_iff_getElem] at hascending
    have hsucc : i + 1 < p.alphabet.length := by omega
    have hlt := hascending i (i + 1) (by omega) hsucc (Nat.lt_succ_self i)
    rwa [List.getD_eq_getElem _ _ (Nat.lt_of_succ_lt hsucc), List.getD_eq_getElem _ _ hsucc]
  · rw [← romImage_map_snd p.alphabet] at hc
    obtain ⟨cell, hcell, rfl⟩ := List.mem_map.1 hc
    exact hprintable cell hcell
  · rw [cellAt_romImage] at hdash
    rw [List.getD_eq_getElem?_getD, hdash]; rfl
  · rw [cellAt_romImage] at hdot
    rw [List.getD_eq_getElem?_getD, hdot]; rfl

end Sys2Proof.Machine
end

section
/-! PROOFS. The memory family (spec/20_memory.md): which digits ROM_V2C has an entry for (R41, R54), and the
packing of the slots on the bus (R45). -/

namespace Sys2Proof.Machine

/-! The slots and the lanes of the 88-bit vector -/

theorem slotAt_eq_getElem (v : Slots) {i : Nat} (hi : i < 11) : slotAt v i = v[i] := by
  simp [slotAt, List.getD_eq_getElem?_getD, hi]

/-- Slots are equal when each of the eleven is (R60). -/
theorem slots_ext {u v : Slots} (h : ∀ i, i < 11 → slotAt u i = slotAt v i) : u = v := by
  refine Vector.ext fun i hi => ?_
  rw [← slotAt_eq_getElem u hi, ← slotAt_eq_getElem v hi]
  exact h i hi

theorem slotAt_unpackSlots (w : BitVec 88) {i : Nat} (hi : i < 11) :
    slotAt (unpackSlots w) i = w.extractLsb' (8 * i) 8 := by
  rw [unpackSlots, slotAt_slotsOf, if_pos hi]
  simp [List.getD_eq_getElem?_getD, hi]

/-- An 88-bit vector is determined by its eleven byte lanes (R45): bit `k` stands in lane `k / 8`. -/
theorem bitVec88_ext {u w : BitVec 88}
    (h : ∀ i, i < 11 → u.extractLsb' (8 * i) 8 = w.extractLsb' (8 * i) 8) : u = w := by
  refine BitVec.eq_of_getLsbD_eq fun k hk => ?_
  have hlane := congrArg (BitVec.getLsbD · (k % 8)) (h (k / 8) (by omega))
  have hbit : k % 8 < 8 := Nat.mod_lt k (by decide)
  simpa [hbit, Nat.div_add_mod] using hlane

/-- The slots `0..n` of `f` appended as `packSlots` appends the eleven: slot 0 is the least significant. -/
def packLanes : (n : Nat) → (f : Nat → Byte) → BitVec (8 * (n + 1))
  | 0, f => f 0
  | n + 1, f => packLanes n (fun k => f (k + 1)) ++ f 0

theorem packSlots_eq_packLanes (v : Slots) : packSlots v = packLanes 10 (slotAt v) := rfl

/-- R45: lane `i` of appended slots is slot `i`. -/
theorem extractLsb'_packLanes (n : Nat) (f : Nat → Byte) {i : Nat} (hi : i ≤ n) :
    (packLanes n f).extractLsb' (8 * i) 8 = f i := by
  induction n generalizing f i with
  | zero =>
    obtain rfl : i = 0 := Nat.le_zero.1 hi
    exact BitVec.extractLsb'_eq_self
  | succ n ih =>
    cases i with
    | zero => exact BitVec.extractLsb'_append_eq_right
    | succ i =>
      calc (packLanes (n + 1) f).extractLsb' (8 * i + 8) 8
        _ = (packLanes n fun k => f (k + 1)).extractLsb' (8 * i + 8 - 8) 8 :=
          BitVec.extractLsb'_append_eq_of_le (Nat.le_add_left 8 (8 * i))
        _ = f (i + 1) := ih _ (Nat.le_of_succ_le_succ hi)

/-- R45: lane `i` of the packed vector is slot `i`. -/
theorem extractLsb'_packSlots (v : Slots) {i : Nat} (hi : i < 11) :
    (packSlots v).extractLsb' (8 * i) 8 = slotAt v i := by
  rw [packSlots_eq_packLanes]
  exact extractLsb'_packLanes 10 (slotAt v) (Nat.le_of_lt_succ hi)

/-! The statements -/

/-- Settles O15: a unit that answers is valid, and a valid alphabet lists exactly the digits below `RADIX`. -/
theorem romV2CReadsBelowRadixOnly : Obligations.RomV2CReadsBelowRadixOnly := by
  intro s l d hlut
  obtain ⟨hvalid, -⟩ := lut_valid hlut
  exact ⟨fun hd => ⟨l.char d, (readV2C_of_lt hvalid hd).2⟩, fun hd => (readV2C_of_ge hvalid hd).2⟩

/-- Settles O55: slots and vectors are each determined by their eleven lanes, and packing and unpacking leave
every lane as it was. -/
theorem slotPackingIsLittleEndian : Obligations.SlotPackingIsLittleEndian := by
  refine ⟨fun v _ => extractLsb'_packSlots v, fun v => slots_ext fun i hi => ?_,
    fun w => bitVec88_ext fun i hi => ?_⟩
  · rw [slotAt_unpackSlots _ hi, extractLsb'_packSlots _ hi]
  · rw [extractLsb'_packSlots _ hi, slotAt_unpackSlots _ hi]

end Sys2Proof.Machine
end

section
/-! PROOFS. The encoding family (spec/30_encoding.md): the command words (R63-R68), how a step runs a stored
word and answers an illegal one (R65, R206), the fields an operation reads (R75), and the request of an
assembler line (R72). -/

namespace Sys2Proof.Machine

/-! Command words -/

/-- What the laws say of each operation's command word, for all of them. -/
theorem encoding_statement : ∀ i : Instr, Laws.Encoding.Statement i
  | .encp32 => Laws.Encoding.encp32
  | .encp64 => Laws.Encoding.encp64
  | .encu32 => Laws.Encoding.encu32
  | .encu64 => Laws.Encoding.encu64
  | .dec32 => Laws.Encoding.dec32
  | .dec64 => Laws.Encoding.dec64
  | .lutv2c => Laws.Encoding.lutv2c
  | .lutc2v => Laws.Encoding.lutc2v
  | .pol32 => Laws.Encoding.pol32
  | .pol64 => Laws.Encoding.pol64

@[simp] theorem decode_encode (i : Instr) : decode (encode i) = .ok i := by
  obtain ⟨-, hdecode, -, -⟩ := encoding_statement i
  exact hdecode

theorem command_wellFormed (i : Instr) : i.command.wellFormed = true := by
  obtain ⟨hwf, -, -, -⟩ := encoding_statement i
  exact hwf

theorem commandFields_encode (i : Instr) : commandFields (encode i) = i.command := by
  obtain ⟨-, -, hfields, -⟩ := encoding_statement i
  exact hfields

/-- R63: a command word is its three fields. -/
theorem commandWord_commandFields (c : BitVec 8) : commandWord (commandFields c) = c := by
  simp only [commandWord, commandFields]
  rw [BitVec.extractLsb'_append_extractLsb'_eq_extractLsb' (by rfl),
    BitVec.extractLsb'_append_extractLsb'_eq_extractLsb' (by rfl)]
  exact BitVec.extractLsb'_eq_self

/-- R65, R66: every row matches its operation's word under the full mask. -/
theorem opcodeMap_row : ∀ r ∈ opcodeMap, r.mask = BitVec.allOnes 8 ∧ r.pattern = encode r.instr := by
  decide

/-- R65: a command decodes to an operation exactly if it is the operation's word. -/
theorem decode_eq_ok_iff (c : BitVec 8) (i : Instr) : decode c = .ok i ↔ c = encode i := by
  constructor
  · intro h
    unfold decode at h
    split at h
    · next r hr =>
      cases h
      obtain ⟨hmask, hpattern⟩ := opcodeMap_row r (List.mem_of_find?_eq_some hr)
      have hmatch := List.find?_some hr
      rwa [beq_iff_eq, hmask, hpattern, BitVec.and_allOnes] at hmatch
    · cases h
  · rintro rfl
    exact decode_encode i

/-- R65, R67: a value that is no operation's word is rejected for its kind. -/
theorem decode_of_ne_encode {c : BitVec 8} (h : ∀ i, c ≠ encode i) :
    decode c = .error (rejectReason c) := by
  cases hd : decode c with
  | ok i => exact absurd ((decode_eq_ok_iff c i).1 hd) (h i)
  | error e =>
    unfold decode at hd
    split at hd
    · cases hd
    · exact hd.symm

/-- R64: with `rsv` = 0, a function that is defined at a width it allows has a row of the map. -/
theorem command_mem_opcodeMap : ∀ (fn : BitVec 3) (w : BitVec 1),
    (Command.mk 0 fn w).functionDefined = true → (Command.mk 0 fn w).widthAllowed = true →
      Command.mk 0 fn w ∈ opcodeMap.map fun r => r.instr.command := by
  decide

/-- R63, R64: the well-formed fields are those of the ten operations. -/
theorem command_wellFormed_iff (f : Command) : f.wellFormed = true ↔ ∃ i : Instr, f = i.command := by
  constructor
  · obtain ⟨rsv, fn, w⟩ := f
    intro h
    obtain ⟨⟨hrsv, hfn⟩, hw⟩ : (rsv = 0 ∧ _) ∧ _ := by
      simpa only [Command.wellFormed, Bool.and_eq_true, Command.reservedBitsZero, beq_iff_eq] using h
    subst hrsv
    obtain ⟨r, -, hr⟩ := List.mem_map.1 (command_mem_opcodeMap fn w hfn hw)
    exact ⟨r.instr, hr.symm⟩
  · rintro ⟨i, rfl⟩
    exact command_wellFormed i

/-- R67: `rsv` is nonzero from 0x10 on. -/
theorem reservedBitsZero_eq_false_of_ge {c : BitVec 8} (h : 0x10 ≤ c.toNat) :
    (commandFields c).reservedBitsZero = false := by
  have hrsv : (commandFields c).rsv ≠ 0 := fun h0 => by
    have hnat : c.toNat >>> 4 % 2 ^ 4 = 0 := by
      simpa [commandFields] using congrArg BitVec.toNat h0
    have hlt := c.isLt
    rw [Nat.shiftRight_eq_div_pow] at hnat
    omega
  simpa [Command.reservedBitsZero] using hrsv

/-- R67: the values from 0x10 on have nonzero reserved bits, and no operation has. -/
theorem decode_of_ge {c : BitVec 8} (h : 0x10 ≤ c.toNat) : decode c = .error .reservedBits := by
  have hrsv := reservedBitsZero_eq_false_of_ge h
  have hne : ∀ i, c ≠ encode i := by
    rintro i rfl
    have hwf := command_wellFormed i
    rw [commandFields_encode] at hrsv
    simp [Command.wellFormed, hrsv] at hwf
  rw [decode_of_ne_encode hne]
  simp [rejectReason, hrsv]

/-- R66, R67: the sixteen values with `rsv` = 0, by kind. -/
theorem illegalKinds_below_0x10 : ∀ n, n < 0x10 →
    (decode (BitVec.ofNat 8 n) = .error .widthNotAllowed ↔
      BitVec.ofNat 8 n = 0x07 ∨ BitVec.ofNat 8 n = 0x09) ∧
    (decode (BitVec.ofNat 8 n) = .error .reservedFunction ↔
      BitVec.ofNat 8 n = 0x0A ∨ BitVec.ofNat 8 n = 0x0B ∨ BitVec.ofNat 8 n = 0x0E ∨
        BitVec.ofNat 8 n = 0x0F) ∧
    decode (BitVec.ofNat 8 n) ≠ .error .reservedBits := by
  decide

/-! A step with a request presented -/

/-- R206: the answer to a command that decodes to no operation, written out. -/
theorem serve_illegal {s : State} {l : Lut} {q rest e} (hr : s.rst = false) (hl : s.lut = .ok l)
    (hq : s.Presents q rest) (hd : decode q.req.cmd = .error e) :
    serve s = .next (s.respond q.port { zeroResponse with status := 8 } rest) := by
  rw [serve_of_decode_error hr hq hd]
  exact transact_of_presents hq hl rfl

/-- A stored command is that of the request presented, whether one was presented before or not. -/
theorem withCommand_presents (s : State) (cmd : BitVec 8) :
    ∃ q rest, (withCommand s cmd).Presents q rest ∧ q.req.cmd = cmd := by
  cases hq : s.requests with
  | nil => exact ⟨_, _, withCommand_requests_nil hq cmd, rfl⟩
  | cons q rest => exact ⟨_, _, withCommand_requests_cons hq cmd, rfl⟩

theorem withFetchWord_toNat (s : State) (cmd : BitVec 8) :
    s.withFetchWord 8 cmd.toNat = withCommand s cmd := by
  rw [State.withFetchWord, Nat.mod_eq_of_lt cmd.isLt, BitVec.ofNat_toNat, BitVec.setWidth_eq]

/-! The fields an operation reads (R75) -/

/-- R75: the response is a function of the fields the operation reads. -/
theorem responseOf_congr {i : Instr} {a b : Request} (h : agreeOnReadFields a b i) (l : Lut) :
    responseOf i l a = responseOf i l b := by
  have hpadded : ∀ w, a.valIn = b.valIn → encodePadded w l a = encodePadded w l b :=
    fun w hv => by rw [encodePadded, encodePadded, hv]
  have hunpadded : ∀ w, a.valIn = b.valIn → encodeUnpadded w l a = encodeUnpadded w l b :=
    fun w hv => by rw [encodeUnpadded, encodeUnpadded, hv]
  cases i with
  | encp32 | encp64 => exact hpadded _ h
  | encu32 | encu64 => exact hunpadded _ h
  | dec32 | dec64 =>
    obtain ⟨hlen, hslots⟩ := h
    exact congrArg Except.ok (decodeString_congr hlen hslots)
  | lutv2c =>
    have hv : a.valIn = b.valIn := h
    simp only [responseOf, digitToCharacter, hv]
  | lutc2v =>
    have hv : a.valIn = b.valIn := h
    simp only [responseOf, characterToDigit, hv]
  | pol32 | pol64 => rfl

/-! The request of a line (R72) -/

theorem decOf_takesText (w : Policy) : (decOf w).takesText = true := by cases w <;> rfl

/-- A DEC32 or DEC64 line with a string is accepted if its string and its `len=` fit. -/
theorem text_wellFormed_iff (w : Policy) (len : Option Nat) (cs : List Byte) :
    (AsmLine.text (decOf w) len (some cs)).wellFormed = true ↔
      fitsField 32 len = true ∧ cs.length ≤ 11 := by
  simp [AsmLine.wellFormed, fitsSlots, decOf_takesText]

theorem raw_wellFormed_iff {cmd : Nat} (hcmd : cmd < 256) (len : Option Nat) (cs : List Byte) :
    (AsmLine.raw cmd none len (some cs)).wellFormed = true ↔ fitsField 32 len = true ∧ cs.length ≤ 11 := by
  simp [AsmLine.wellFormed, fitsSlots, fitsField, hcmd]

theorem assemble_of_wellFormed {line : AsmLine} (h : line.wellFormed = true) :
    assemble line = some (lineRequest line) := by
  rw [assemble, if_pos h]

theorem assemble_of_not_wellFormed {line : AsmLine} (h : ¬line.wellFormed = true) :
    assemble line = none := by
  rw [assemble, if_neg h]

/-- The request of a DEC32 or DEC64 line with a string. -/
theorem assemble_text {w : Policy} {len : Option Nat} {cs : List Byte} (hlen : fitsField 32 len = true)
    (hcs : cs.length ≤ 11) :
    ∃ q, assemble (.text (decOf w) len (some cs)) = some q ∧ decode q.cmd = .ok (decOf w) ∧
      q.valIn = 0 ∧ q.lenIn = lineLength len (some cs) ∧ q.strIn = slotsOf cs :=
  ⟨_, assemble_of_wellFormed ((text_wellFormed_iff w len cs).2 ⟨hlen, hcs⟩), decode_encode _, rfl, rfl, rfl⟩

/-- The request of a RAW line with a string and no `val=`. -/
theorem assemble_raw {cmd : Nat} {len : Option Nat} {cs : List Byte} (hcmd : cmd < 256)
    (hlen : fitsField 32 len = true) (hcs : cs.length ≤ 11) :
    ∃ q, assemble (.raw cmd none len (some cs)) = some q ∧ q.cmd.toNat = cmd ∧
      q.valIn = 0 ∧ q.lenIn = lineLength len (some cs) ∧ q.strIn = slotsOf cs :=
  ⟨_, assemble_of_wellFormed ((raw_wellFormed_iff hcmd len cs).2 ⟨hlen, hcs⟩),
    Nat.mod_eq_of_lt hcmd, rfl, rfl, rfl⟩

/-- R72, R74: without `len=`, the string operand is the string of the line. -/
theorem stringOperand_of_literal {q : Request} {cs : List Byte} (hcs : cs.length ≤ 11)
    (hlen : q.lenIn = lineLength none (some cs)) (hstr : q.strIn = slotsOf cs) :
    q.lenIn.toNat = cs.length ∧ stringOperand q = cs := by
  have hn : q.lenIn.toNat = cs.length := by rw [hlen, lineLength_of_literal hcs]
  exact ⟨hn, by rw [stringOperand, hn, hstr, take_slotsOf hcs]⟩

/-! The statements -/

/-- Settles O44: responses are functions of the fields read, and an illegal command's is a constant. -/
theorem unreadFieldsDoNotMatter : Obligations.UnreadFieldsDoNotMatter := by
  constructor
  · intro i s s' q rest q' rest' l hl hl' hq hq' hagree
    obtain ⟨r, hr⟩ := responseOf_ok i (lut_valid hl).1 q.req
    have hr' : responseOf i l q'.req = .ok r := by rw [← responseOf_congr hagree l, hr]
    exact ⟨r, exec_of_presents hq hl hr, exec_of_presents hq' hl' hr'⟩
  · intro s s' q rest q' rest' l e hl hl' hrst hrst' hq hq' hcmd hd
    have hd' : decode q'.req.cmd = .error e := hcmd ▸ hd
    exact ⟨_, serve_illegal hrst hl hq hd, serve_illegal hrst' hl' hq' hd'⟩

/-- Settles O56: a line is accepted exactly if its numbers and its string fit, and its request holds the
string in its slots and the length of `lineLength`. -/
theorem assembledStringIsTheOperand : Obligations.AssembledStringIsTheOperand := by
  intro w cmd cs hcmd
  refine ⟨fun hcs => ⟨?_, ?_, fun n hn => ?_⟩, fun hlong len => ⟨?_, ?_⟩⟩
  · obtain ⟨q, hq, hdec, hval, hlen, hstr⟩ := assemble_text (w := w) (len := none) rfl hcs
    exact ⟨q, hq, hdec, hval, stringOperand_of_literal hcs hlen hstr⟩
  · obtain ⟨q, hq, hcmd', hval, hlen, hstr⟩ := assemble_raw (len := none) hcmd rfl hcs
    exact ⟨q, hq, hcmd', hval, stringOperand_of_literal hcs hlen hstr⟩
  · have hfits : fitsField 32 (some n) = true := decide_eq_true hn
    obtain ⟨q, hq, hdec, hval, hlen, hstr⟩ := assemble_text (w := w) hfits hcs
    obtain ⟨q', hq', hcmd', hval', hlen', hstr'⟩ := assemble_raw hcmd hfits hcs
    have hlength := lineLength_of_len hn (some cs)
    exact ⟨⟨q, hq, hdec, hval, hlen ▸ hlength, hstr⟩, ⟨q', hq', hcmd', hval', hlen' ▸ hlength, hstr'⟩⟩
  · refine assemble_of_not_wellFormed fun h => ?_
    obtain ⟨-, hcs⟩ := (text_wellFormed_iff w len cs).1 h
    exact Nat.not_le_of_lt hlong hcs
  · refine assemble_of_not_wellFormed fun h => ?_
    obtain ⟨-, hcs⟩ := (raw_wellFormed_iff hcmd len cs).1 h
    exact Nat.not_le_of_lt hlong hcs

/-- Settles O7: a command decodes to exactly the operation whose word it is, so each operation leaves its own
row of the map. -/
theorem decodeIsTheOpcodeMap : Obligations.DecodeIsTheOpcodeMap := by
  intro c i
  rw [decode_eq_ok_iff]
  cases i <;> simp [encode, commandWord, Instr.command]

/-- Settles O8: the encoder's words decode back, and the well-formed fields are those of its words. -/
theorem encodeThenDecode : Obligations.EncodeThenDecode := by
  refine ⟨fun i => ⟨decode_encode i, command_wellFormed i⟩, fun c => ?_⟩
  rw [command_wellFormed_iff]
  refine exists_congr fun i => ?_
  rw [decode_eq_ok_iff]
  constructor
  · rintro rfl
    exact commandFields_encode i
  · intro h
    rw [← commandWord_commandFields c, h, encode]

/-- Settles O9: each of the six words is the encoder's. -/
theorem sampleCommandWords : Obligations.SampleCommandWords :=
  ⟨decode_encode .encp32, decode_encode .encu64, decode_encode .dec64, decode_encode .lutv2c,
    decode_encode .lutc2v, decode_encode .pol64⟩

/-- Settles O10: the values from 0x10 on have nonzero reserved bits; the sixteen below are listed. -/
theorem illegalCommandKinds : Obligations.IllegalCommandKinds := by
  intro c
  by_cases hc : 0x10 ≤ c.toNat
  · have hne : ∀ k : BitVec 8, k.toNat < 0x10 → c ≠ k := by
      rintro k hk rfl
      omega
    simp [decode_of_ge hc, hc, hne]
  · obtain ⟨hwidth, hfunction, hreserved⟩ := illegalKinds_below_0x10 c.toNat (Nat.lt_of_not_le hc)
    rw [BitVec.ofNat_toNat, BitVec.setWidth_eq] at hwidth hfunction hreserved
    exact ⟨hwidth, hfunction, iff_of_false hreserved hc⟩

/-- Settles O12: both schedules lead to the request transfer, which answers ILLEGAL_OP. -/
theorem stepAnswersAnIllegalCommand : Obligations.StepAnswersAnIllegalCommand := by
  intro s l q rest e hr hl hq hd
  refine ⟨fun ha => ?_, fun ms ha => ?_⟩
  · rw [step_of_nil ha, autonomous_of_presents hr hq, serve_illegal hr hl hq hd]
  · rw [step_of_cons ha]
    exact serve_illegal (s := { s with agenda := ms }) hr hl hq hd

/-- Settles O14: the stored word stands in the request presented, with `rst` deasserted and nothing
scheduled, and decodes to its operation. -/
theorem storedCommandRunsNext : Obligations.StoredCommandRunsNext := by
  intro s i
  refine ⟨?_, withFetchWord_lut s 8 _, ?_⟩ <;> rw [withFetchWord_toNat]
  · obtain ⟨q, rest, hq, hcmd⟩ := withCommand_presents s (encode i)
    have hd : decode q.req.cmd = .ok i := by rw [hcmd, decode_encode]
    obtain ⟨hidle, -⟩ := stepRunsTheDecodedCommand _ q rest i (withCommand_rst s (encode i)) hq hd
    exact hidle (withCommand_agenda s (encode i))
  · exact withCommand_presents s (encode i)

end Sys2Proof.Machine
end

section
/-! PROOFS. The alphabet family (spec/40_alphabet_lut.md): the order of the digits and the two ROMs as inverses
(R101, R104), and the two lookup operations (R102, R103). -/

namespace Sys2Proof.Machine

/-! Reading ROM_V2C -/

/-- R41, R21: ROM_V2C answers exactly at the digits below `RADIX`, with the digit's character. -/
theorem readV2C_eq_ok_iff {l : Lut} (hl : alphabetValid l.radix l.romV2C = true) {d : Nat} {c : Byte} :
    readV2C l d = .ok c ↔ d < l.radix ∧ c = l.char d := by
  by_cases hd : d < l.radix
  · rw [(readV2C_of_lt hl hd).2, Except.ok.injEq]
    exact ⟨fun h => ⟨hd, h.symm⟩, fun h => h.2.symm⟩
  · rw [(readV2C_of_ge hl (Nat.le_of_not_lt hd)).2]
    simp [hd]

/-! What the lookup operations answer -/

/-- R102: below `RADIX` the low `DIGIT_W` bits are the whole digit, so its own character is read. -/
theorem digitToCharacter_of_lt {l : Lut} (hl : alphabetValid l.radix l.romV2C = true) {q : Request}
    (h : q.valIn.toNat < l.radix) :
    digitToCharacter l q = .ok (finishCharacter (l.char q.valIn.toNat)) := by
  have hfits : q.valIn.toNat % 2 ^ l.profile.digitW = q.valIn.toNat :=
    Nat.mod_eq_of_lt (Nat.lt_of_lt_of_le h l.radix_le_digitW)
  simp only [digitToCharacter, if_neg (Nat.not_le.2 h), hfits, (readV2C_of_lt hl h).2]

/-- R102: from `RADIX` on nothing is read. -/
theorem digitToCharacter_of_ge {l : Lut} {q : Request} (h : l.radix ≤ q.valIn.toNat) :
    digitToCharacter l q = .ok (raiseDigitRange l.radix q.valIn.toNat) := by
  rw [digitToCharacter, if_pos h]

/-- R103: a code of eight bits is looked up. -/
theorem characterToDigit_of_le {q : Request} (l : Lut) (h : q.valIn.toNat ≤ 0xFF) :
    characterToDigit l q =
      if (readC2V l (q.valIn.setWidth 8)).found then
        finishValue (readC2V l (q.valIn.setWidth 8)).digit.toNat
      else raiseNotFound q.valIn.toNat := by
  rw [characterToDigit, if_neg (Nat.not_lt.2 h), BitVec.ofNat_toNat]

/-- R103: a code above 0xFF is no code unit. -/
theorem characterToDigit_of_gt {q : Request} (l : Lut) (h : 0xFF < q.valIn.toNat) :
    characterToDigit l q = raiseNotFound q.valIn.toNat := by
  rw [characterToDigit, if_pos h]

/-! The payloads, as the widened fields of the request and the ROM -/

/-- R76: `val_out` is the value, in 64 bits. -/
theorem finishValue_toNat {width : Nat} (v : BitVec width) :
    finishValue v.toNat = { zeroResponse with status := 0, valOut := v.setWidth 64 } := by
  rw [finishValue, BitVec.ofNat_toNat]; rfl

/-- R71: `err_val` is the whole value, in 72 bits. -/
theorem raiseDigitRange_toNat (radix : Nat) (v : BitVec 64) :
    raiseDigitRange radix v.toNat =
      { zeroResponse with status := 6, errVal := v.setWidth 72, errMax := BitVec.ofNat 8 radix } := by
  rw [raiseDigitRange, BitVec.ofNat_toNat]; rfl

/-- R71: `err_val` is the whole code, in 72 bits. -/
theorem raiseNotFound_toNat (v : BitVec 64) :
    raiseNotFound v.toNat = { zeroResponse with status := 7, errVal := v.setWidth 72 } := by
  rw [raiseNotFound, BitVec.ofNat_toNat]; rfl

/-! The statements -/

/-- Settles O16: digits with an entry are below `RADIX`, where the characters rise strictly. -/
theorem digitOrderIsCodeOrder : Obligations.DigitOrderIsCodeOrder := by
  intro s l a b c d hlut ha hb
  obtain ⟨hvalid, -⟩ := lut_valid hlut
  obtain ⟨haRadix, rfl⟩ := (readV2C_eq_ok_iff hvalid).1 ha
  obtain ⟨hbRadix, rfl⟩ := (readV2C_eq_ok_iff hvalid).1 hb
  exact (char_lt_iff hvalid haRadix hbRadix).symm

/-- Settles O17: `found` with digit `d` and "`d` is below `RADIX` and its character is this one" are the same,
and a code unit that is not found reads as an unlisted one. -/
theorem romsAreInverse : Obligations.RomsAreInverse := by
  intro s l hlut
  have hl := lut_valid hlut
  obtain ⟨hvalid, -⟩ := lut_valid hlut
  refine ⟨fun d c _ hread => ?_, fun c hfound => ?_, fun c hfound => ?_⟩
  · exact (readC2V_eq_iff hl c d).2 ((readV2C_eq_ok_iff hvalid).1 hread)
  · obtain ⟨hlt, hchar⟩ := (readC2V_eq_iff hl c _).1 ⟨hfound, rfl⟩
    exact ⟨hlt, (readV2C_eq_ok_iff hvalid).2 ⟨hlt, hchar⟩⟩
  · rw [readC2V_of_not_found hl hfound]
    rfl

/-- Settles O18: the digit's character below `RADIX`, DIGIT_RANGE with the whole value from there on. -/
theorem lutv2cReadsOrRejectsADigit : Obligations.Lutv2cReadsOrRejectsADigit := by
  refine ⟨decode_encode .lutv2c, fun s l q rest hlut hq => ?_⟩
  obtain ⟨hvalid, -⟩ := lut_valid hlut
  refine ⟨fun hlt => ?_, fun hge => ?_⟩
  · exact ⟨l.char q.req.valIn.toNat, (readV2C_of_lt hvalid hlt).1,
      exec_of_presents hq hlut (digitToCharacter_of_lt hvalid hlt)⟩
  · rw [← raiseDigitRange_toNat]
    exact exec_of_presents hq hlut (digitToCharacter_of_ge hge)

/-- Settles O19: the digit of a code unit that is found, NOT_FOUND for any other and for every code above
0xFF. -/
theorem lutc2vFindsOrMissesACharacter : Obligations.Lutc2vFindsOrMissesACharacter := by
  refine ⟨decode_encode .lutc2v, fun s l q rest hlut hq => ?_⟩
  have hexec : exec .lutc2v s = .next (s.respond q.port (characterToDigit l q.req) rest) :=
    exec_of_presents hq hlut rfl
  rw [hexec]
  refine ⟨fun hle hfound => ?_, fun hle hmissed => ?_, fun hgt => ?_⟩
  · rw [characterToDigit_of_le l hle, if_pos hfound, finishValue_toNat]
  · rw [characterToDigit_of_le l hle, hmissed, if_neg Bool.false_ne_true, raiseNotFound_toNat]
  · rw [characterToDigit_of_gt l hgt, raiseNotFound_toNat]

end Sys2Proof.Machine
end

section
/-! PROOFS. The policy family (spec/41_policy.md): the length laws (R121) and the two policy queries (R122,
R123). -/

namespace Sys2Proof.Machine

/-! The length laws -/

theorem profile_radix_pos (p : Profile) : 0 < p.radix := (Lut.ofProfile p).radix_pos

/-- R121: `R^L_W` is above `MAX_W`, so `L_W` digits are enough. -/
theorem maxValue_lt_radix_pow (p : Profile) (w : Policy) : w.maxValue < p.radix ^ w.maxLen :=
  (Lut.ofProfile p).maxValue_lt w

/-- R121: `R^(L_W - 1)` is at most `MAX_W`, so one digit fewer is not enough; the four cases are the table's. -/
theorem radix_pow_pred_le_maxValue (p : Profile) (w : Policy) : p.radix ^ (w.maxLen - 1) ≤ w.maxValue := by
  cases p <;> cases w <;> decide

/-! What the policy queries answer -/

theorem finishPolicy_w32 :
    finishPolicy .w32 = { zeroResponse with status := 0, valOut := 0xFFFFFFFF, lenOut := 6 } := rfl

theorem finishPolicy_w64 :
    finishPolicy .w64 = { zeroResponse with status := 0, valOut := 0xFFFFFFFFFFFFFFFF, lenOut := 11 } := rfl

/-! The statements -/

/-- Settles O6: `MAX_W` lies between the powers `L_W - 1` and `L_W` of the radix, and the powers grow. -/
theorem policyLengthsAreLeast : Obligations.PolicyLengthsAreLeast := by
  intro p w n
  constructor
  · intro hlt
    by_contra hn
    have hle : n ≤ w.maxLen - 1 := Nat.le_pred_of_lt (Nat.lt_of_not_le hn)
    have hpow : p.radix ^ n ≤ w.maxValue :=
      (Nat.pow_le_pow_right (profile_radix_pos p) hle).trans (radix_pow_pred_le_maxValue p w)
    exact Nat.not_le_of_lt hlt hpow
  · intro hle
    exact (maxValue_lt_radix_pow p w).trans_le (Nat.pow_le_pow_right (profile_radix_pos p) hle)

/-- Settles O20: the response of either operation depends on neither the alphabet unit nor the request. -/
theorem policyQueriesAnswerConstants : Obligations.PolicyQueriesAnswerConstants := by
  refine ⟨decode_encode .pol32, decode_encode .pol64, fun s l q rest hlut hq => ⟨?_, ?_⟩⟩
  · rw [← finishPolicy_w32]
    exact exec_of_presents hq hlut rfl
  · rw [← finishPolicy_w64]
    exact exec_of_presents hq hlut rfl

end Sys2Proof.Machine
end

section
/-! PROOFS. The encoder family (spec/42_encoder.md): digit expansion (R131), what the four encode operations
answer (R132-R134, R136, R137), the round trips through the decoder, and the order and length laws of the two
string forms (R135, R138). -/

namespace Sys2Proof.Machine

/-! Digit expansion (R131) -/

theorem digits_getD {radix len i : Nat} (v : Nat) (hi : i < len) :
    (digits radix len v).getD i 0 = v / radix ^ (len - 1 - i) % radix := by
  rw [List.getD_eq_getElem _ _ (by simpa using hi), digits_getElem]

/-- R131: dividing by a power of 64 and taking the remainder cuts six bits out of the value. -/
theorem digits_radix64_getD {len i : Nat} (v : BitVec 64) (hi : i < len) :
    (digits 64 len v.toNat).getD i 0 = (v.extractLsb' (6 * (len - 1 - i)) 6).toNat := by
  rw [digits_getD _ hi, BitVec.extractLsb'_toNat, Nat.shiftRight_eq_div_pow, pow_mul]
  norm_num

/-- R131: of a value below `2^(lo + n)` the six bits from `lo` on are the `n` that are left. -/
theorem extractLsb'_six_of_lt {v : BitVec 64} {lo n : Nat} (hn : n ≤ 6) (hv : v.toNat < 2 ^ (lo + n)) :
    (v.extractLsb' lo 6).toNat = (v.extractLsb' lo n).toNat := by
  have hlt : v.toNat / 2 ^ lo < 2 ^ n := by rwa [Nat.div_lt_iff_lt_mul (by positivity), mul_comm, ← pow_add]
  rw [BitVec.extractLsb'_toNat, BitVec.extractLsb'_toNat, Nat.shiftRight_eq_div_pow,
    Nat.mod_eq_of_lt (hlt.trans_le (Nat.pow_le_pow_right (by decide) hn)), Nat.mod_eq_of_lt hlt]

/-! Leading zero digits (R136, R138) -/

theorem dropWhile_replicate_zero_append (k : Nat) (ds : List Nat) :
    (List.replicate k 0 ++ ds).dropWhile (· == 0) = ds.dropWhile (· == 0) :=
  List.dropWhile_append_of_pos fun _ hd => beq_iff_eq.2 (List.eq_of_mem_replicate hd)

/-- A digit string expanded to more digits has zero digits before it. -/
theorem digits_digitsValue_of_le {radix len : Nat} {ds : List Nat} (hr : 0 < radix)
    (hds : ∀ d ∈ ds, d < radix) (hn : ds.length ≤ len) :
    digits radix len (digitsValue radix ds) = List.replicate (len - ds.length) 0 ++ ds := by
  have hpadded : ∀ d ∈ List.replicate (len - ds.length) 0 ++ ds, d < radix := by
    intro d hd
    rcases List.mem_append.1 hd with hd | hd
    · rwa [List.eq_of_mem_replicate hd]
    · exact hds d hd
  have hlen : (List.replicate (len - ds.length) 0 ++ ds).length = len := by
    rw [List.length_append, List.length_replicate, Nat.sub_add_cancel hn]
  have hvalue : digitsValue radix (List.replicate (len - ds.length) 0 ++ ds) = digitsValue radix ds := by
    rw [← digitsValue_dropWhile, dropWhile_replicate_zero_append, digitsValue_dropWhile]
  have hexpand := digits_digitsValue hpadded
  rwa [hlen, hvalue] at hexpand

/-- A digit string is its value's stripped digits with zero digits before them. -/
theorem eq_replicate_append_strippedDigits {radix len : Nat} {ds : List Nat} (hr : 0 < radix)
    (hds : ∀ d ∈ ds, d < radix) (hn : ds.length ≤ len) :
    ∃ k, ds = List.replicate k 0 ++ strippedDigits radix len (digitsValue radix ds) := by
  have hzeros : ds.takeWhile (· == 0) = List.replicate (ds.takeWhile (· == 0)).length 0 :=
    List.eq_replicate_of_mem fun d hd => by simpa using List.mem_takeWhile_imp hd
  have hstripped : strippedDigits radix len (digitsValue radix ds) = ds.dropWhile (· == 0) := by
    rw [strippedDigits_eq_dropWhile, digits_digitsValue_of_le hr hds hn, dropWhile_replicate_zero_append]
  refine ⟨(ds.takeWhile (· == 0)).length, ?_⟩
  rw [← hzeros, hstripped, List.takeWhile_append_dropWhile]

/-- R138 item 2: the powers of the radix above a value are those from its stripped length on. -/
theorem lt_pow_iff_strippedDigits_length_le {radix len v : Nat} (hr : 0 < radix) (hv : v < radix ^ len) (n : Nat) :
    v < radix ^ n ↔ (strippedDigits radix len v).length ≤ n := by
  rcases Nat.eq_zero_or_pos v with rfl | hpos
  · simp [strippedDigits_zero, Nat.pow_pos hr]
  obtain ⟨-, hlow, hup⟩ := strippedDigits_length hr hpos hv
  constructor
  · intro hlt
    by_contra hn
    have hpow := Nat.pow_le_pow_right hr (Nat.le_sub_one_of_lt (Nat.lt_of_not_le hn))
    exact Nat.not_le_of_lt hlt (hpow.trans hlow)
  · intro hle
    exact hup.trans_le (Nat.pow_le_pow_right hr hle)

/-- R28 item 4: `-` is the zero digit's character and no other's, so stripping characters is stripping digits. -/
theorem dropWhile_map_char {l : Lut} (hl : alphabetValid l.radix l.romV2C = true) {ds : List Nat}
    (hds : ∀ d ∈ ds, d < l.radix) :
    (ds.map l.char).dropWhile (· == 0x2D) = (ds.dropWhile (· == 0)).map l.char := by
  induction ds with
  | nil => rfl
  | cons d ds ih =>
    obtain ⟨hd, hds⟩ := List.forall_mem_cons.1 hds
    by_cases h : d = 0
    · simpa [h, char_zero hl] using ih hds
    · have hchar : l.char d ≠ l.char 0 := fun he => h (char_inj hl hd l.radix_pos he)
      rw [char_zero hl] at hchar
      rw [List.map_cons, List.dropWhile_cons_of_neg (by simpa using hchar),
        List.dropWhile_cons_of_neg (by simpa using h), List.map_cons]

/-! The slots of an encoded string -/

theorem slotAt_slotsOf_of_ge {cs : List Byte} {i : Nat} (h : cs.length ≤ i) : slotAt (slotsOf cs) i = 0 := by
  rw [slotAt_slotsOf, List.getD_eq_default _ _ h, ite_self]

/-- Slot `j` of the digits from `k` on holds the character of digit `k + j` (R133, R136). -/
theorem cellAt_digit_eq_slotAt {l : Lut} (hl : alphabetValid l.radix l.romV2C = true) {len k j : Nat} (v : Nat)
    (hlen : len ≤ 11) (hj : k + j < len) :
    cellAt l.romV2C (v / l.radix ^ (len - 1 - (k + j)) % l.radix) =
      some (slotAt (slotsOf (((digits l.radix len v).drop k).map l.char)) j) := by
  have hdrop : j < (((digits l.radix len v).drop k).map l.char).length := by
    rw [List.length_map, List.length_drop, digits_length]
    omega
  rw [(readV2C_of_lt hl (Nat.mod_lt _ l.radix_pos)).1, slotAt_slotsOf, if_pos (by omega),
    List.getD_eq_getElem _ _ hdrop, List.getElem_map, List.getElem_drop, digits_getElem]

theorem digitChars_length_le (l : Lut) (w : Policy) (v : Nat) :
    ((digits l.radix w.maxLen v).map l.char).length ≤ 11 := by
  simpa using policy_maxLen_le w

theorem strippedChars_length_le (l : Lut) (w : Policy) (v : Nat) :
    ((strippedDigits l.radix w.maxLen v).map l.char).length ≤ 11 := by
  simpa using (strippedDigits_length_le l.radix w.maxLen v).trans (policy_maxLen_le w)

/-- R74: an operand of one code unit is slot 0. -/
theorem stringOperand_of_lenIn_one {q : Request} (h : q.lenIn.toNat = 1) : stringOperand q = [slotAt q.strIn 0] := by
  refine List.ext_getElem (by simp [stringOperand_length, h]) fun i _ hi => ?_
  obtain rfl : i = 0 := by simpa using hi
  exact stringOperand_getElem ..

/-! What the encode operations answer -/

theorem responseOf_encpOf (w : Policy) : responseOf (encpOf w) = encodePadded w := by cases w <;> rfl

theorem responseOf_encuOf (w : Policy) : responseOf (encuOf w) = encodeUnpadded w := by cases w <;> rfl

theorem responseOf_decOf (w : Policy) : responseOf (decOf w) = fun l q => .ok (decodeString w l q) := by
  cases w <;> rfl

/-- R76: what a string response holds. -/
theorem finishString_eq (cs : List Byte) :
    finishString cs =
      { zeroResponse with status := 0, lenOut := BitVec.ofNat 4 cs.length, strOut := slotsOf cs } := rfl

/-- R76: `len_out` of four bits is the number of code units, at most 11. -/
theorem finishString_lenOut {cs : List Byte} (hc : cs.length ≤ 11) : (finishString cs).lenOut.toNat = cs.length :=
  Nat.mod_eq_of_lt (by omega)

/-- R132: `err_val` is the whole value, in 72 bits. -/
theorem raiseEncodeRange_toNat (w : Policy) (v : BitVec 64) :
    raiseEncodeRange w v.toNat =
      { zeroResponse with status := 5, errVal := v.setWidth 72, errMaxval := BitVec.ofNat 64 w.maxValue } := by
  rw [raiseEncodeRange, BitVec.ofNat_toNat]; rfl

section
variable {w : Policy} {s : State} {l : Lut} {q : PortRequest} {rest : List PortRequest}

/-- An operation that answers answers the response of its unit and request (R207). -/
theorem response_of_exec {i : Instr} {r r' : Response} (hlut : s.lut = .ok l) (hq : s.Presents q rest)
    (hr : responseOf i l q.req = .ok r) (hexec : exec i s = .next (s.respond q.port r' rest)) : r' = r := by
  rw [exec_of_presents hq hlut hr, Host.Outcome.next.injEq] at hexec
  exact (respond_inj hexec).symm

/-- R131-R134: the padded encode of a value that fits. -/
theorem responseOf_encpOf_of_le (hlut : s.lut = .ok l) (h : q.req.valIn.toNat ≤ w.maxValue) :
    responseOf (encpOf w) l q.req =
      .ok (finishString ((digits l.radix w.maxLen q.req.valIn.toNat).map l.char)) := by
  rw [responseOf_encpOf, encodePadded_of_le (lut_valid hlut).1 h]

/-- R136, R137: the unpadded encode of a value that fits. -/
theorem responseOf_encuOf_of_le (hlut : s.lut = .ok l) (h : q.req.valIn.toNat ≤ w.maxValue) :
    responseOf (encuOf w) l q.req =
      .ok (finishString ((strippedDigits l.radix w.maxLen q.req.valIn.toNat).map l.char)) := by
  rw [responseOf_encuOf, encodeUnpadded_of_le (lut_valid hlut).1 h]

/-- R133, R134: the padded encode of a value that fits, slot by slot. -/
theorem exec_encpOf_slots (hlut : s.lut = .ok l) (hq : s.Presents q rest) (h : q.req.valIn.toNat ≤ w.maxValue) :
    ∃ str : Slots,
      exec (encpOf w) s = .next (s.respond q.port
        { zeroResponse with status := 0, lenOut := BitVec.ofNat 4 w.maxLen, strOut := str } rest) ∧
      (∀ i, i < w.maxLen →
        cellAt l.romV2C (q.req.valIn.toNat / l.radix ^ (w.maxLen - 1 - i) % l.radix) = some (slotAt str i)) ∧
      (∀ i, w.maxLen ≤ i → slotAt str i = 0) := by
  have hexec := exec_of_presents hq hlut (responseOf_encpOf_of_le hlut h)
  rw [finishString_eq, List.length_map, digits_length] at hexec
  refine ⟨_, hexec, fun i hi => ?_, fun i hi => slotAt_slotsOf_of_ge (by simpa using hi)⟩
  simpa using cellAt_digit_eq_slotAt (lut_valid hlut).1 (k := 0) q.req.valIn.toNat (policy_maxLen_le w)
    (by simpa using hi)

/-- R136, R137: the unpadded encode of a value that fits, slot by slot, with `k` the number of zero digits at
its front. -/
theorem exec_encuOf_slots (hlut : s.lut = .ok l) (hq : s.Presents q rest) (h : q.req.valIn.toNat ≤ w.maxValue) :
    ∃ (str : Slots) (k : Nat), k ≤ w.maxLen ∧
      (∀ i, i < k → q.req.valIn.toNat / l.radix ^ (w.maxLen - 1 - i) % l.radix = 0) ∧
      (k < w.maxLen → q.req.valIn.toNat / l.radix ^ (w.maxLen - 1 - k) % l.radix ≠ 0) ∧
      exec (encuOf w) s = .next (s.respond q.port
        { zeroResponse with status := 0, lenOut := BitVec.ofNat 4 (w.maxLen - k), strOut := str } rest) ∧
      (∀ j, j < w.maxLen - k →
        cellAt l.romV2C (q.req.valIn.toNat / l.radix ^ (w.maxLen - 1 - (k + j)) % l.radix) =
          some (slotAt str j)) ∧
      (∀ j, w.maxLen - k ≤ j → slotAt str j = 0) := by
  have hexec := exec_of_presents hq hlut (responseOf_encuOf_of_le hlut h)
  rw [finishString_eq, List.length_map, strippedDigits, List.length_drop, digits_length] at hexec
  have hk := List.findIdx_le_length (p := (· != 0)) (xs := digits l.radix w.maxLen q.req.valIn.toNat)
  refine ⟨_, _, by simpa using hk, fun i hi => ?_, fun hlt => ?_, hexec, fun j hj => ?_, fun j hj => ?_⟩
  · rw [← digits_getElem l.radix w.maxLen _ i (hi.trans_le hk)]
    simpa using List.not_of_lt_findIdx hi
  · rw [← digits_getElem l.radix w.maxLen _ _ (by simpa using hlt)]
    simpa using List.findIdx_getElem (p := (· != 0)) (xs := digits l.radix w.maxLen q.req.valIn.toNat)
      (w := by simpa using hlt)
  · exact cellAt_digit_eq_slotAt (lut_valid hlut).1 _ (policy_maxLen_le w) (by omega)
  · exact slotAt_slotsOf_of_ge (by simpa using hj)

/-- R132: an encode of a value above `MAX_W`, padded or not. -/
theorem exec_encode_of_gt {i : Instr} (hi : i = encpOf w ∨ i = encuOf w) (hlut : s.lut = .ok l)
    (hq : s.Presents q rest) (h : w.maxValue < q.req.valIn.toNat) :
    exec i s = .next (s.respond q.port
      { zeroResponse with
        status := 5, errVal := q.req.valIn.setWidth 72, errMaxval := BitVec.ofNat 64 w.maxValue } rest) := by
  rw [← raiseEncodeRange_toNat]
  refine exec_of_presents hq hlut ?_
  rcases hi with rfl | rfl
  · rw [responseOf_encpOf, encodePadded_of_gt l h]
  · rw [responseOf_encuOf, encodeUnpadded_of_gt l h]

/-! What the decoder answers to encoded strings -/

/-- A decode whose operand is a digit string in characters, of a value that fits (R104, R158, R159). -/
theorem exec_decOf_of_chars {ds : List Nat} {v : BitVec 64} (hlut : s.lut = .ok l) (hq : s.Presents q rest)
    (hds : ∀ d ∈ ds, d < l.radix) (hne : ds ≠ []) (hn : ds.length ≤ w.maxLen)
    (hvalue : digitsValue l.radix ds = v.toNat) (hv : v.toNat ≤ w.maxValue)
    (hlen : q.req.lenIn.toNat = ds.length) (hop : stringOperand q.req = ds.map l.char) :
    exec (decOf w) s = .next (s.respond q.port { zeroResponse with status := 0, valOut := v } rest) := by
  refine exec_of_presents hq hlut ?_
  rw [responseOf_decOf]
  simp only [decodeString_of_chars (lut_valid hlut) hds hne hn hop hlen, hvalue,
    if_neg (Nat.not_lt.2 hv), finishValue_toNat, BitVec.setWidth_eq]

/-- R135, R138: a string response given back decodes to the value of its digits. -/
theorem exec_decOf_of_finishString {ds : List Nat} {v : BitVec 64} (hlut : s.lut = .ok l) (hq : s.Presents q rest)
    (hds : ∀ d ∈ ds, d < l.radix) (hne : ds ≠ []) (hn : ds.length ≤ w.maxLen)
    (hvalue : digitsValue l.radix ds = v.toNat) (hv : v.toNat ≤ w.maxValue)
    (hlen : q.req.lenIn = (finishString (ds.map l.char)).lenOut.setWidth 32)
    (hstr : q.req.strIn = (finishString (ds.map l.char)).strOut) :
    exec (decOf w) s = .next (s.respond q.port { zeroResponse with status := 0, valOut := v } rest) := by
  have h11 : (ds.map l.char).length ≤ 11 := by simpa using hn.trans (policy_maxLen_le w)
  obtain ⟨hlenIn, hop⟩ := stringOperand_of_finishString h11 hlen hstr
  exact exec_decOf_of_chars hlut hq hds hne hn hvalue hv (by simpa using hlenIn) hop

/-- A decode with status OK (R151): its operand is a digit string in characters, with the value in `val_out`. -/
theorem decodeString_eq_ok (hl : l.Valid) {q : Request} (h : (decodeString w l q).status = 0) :
    ∃ ds, (∀ d ∈ ds, d < l.radix) ∧ ds.length ≤ w.maxLen ∧ stringOperand q = ds.map l.char ∧
      digitsValue l.radix ds ≤ w.maxValue ∧ decodeString w l q = finishValue (digitsValue l.radix ds) := by
  rcases decodeString_cases w l q with ⟨-, e⟩ | ⟨-, e⟩ | ⟨⟨-, hn⟩,
    ⟨_, _, _, -, -, -, e⟩ | ⟨acc, hfound, rfl, ⟨-, e⟩ | ⟨hle, e⟩⟩⟩
  · rw [e] at h; exact absurd h (show ¬ (2 : BitVec 4) = 0 by decide)
  · rw [e] at h; exact absurd h (show ¬ (4 : BitVec 4) = 0 by decide)
  · rw [e] at h; exact absurd h (show ¬ (1 : BitVec 4) = 0 by decide)
  · rw [e] at h; exact absurd h (show ¬ (3 : BitVec 4) = 0 by decide)
  · have hdigit : ∀ c ∈ stringOperand q,
        (readC2V l c).digit.toNat < l.radix ∧ c = l.char (readC2V l c).digit.toNat :=
      fun c hc => (readC2V_eq_iff hl c _).1 ⟨hfound c hc, rfl⟩
    refine ⟨_, List.forall_mem_map.2 fun c hc => (hdigit c hc).1, ?_, ?_, hle, e⟩
    · rw [List.length_map, stringOperand_length]
      exact (Nat.min_le_left _ _).trans hn
    · rw [List.map_map]
      exact (List.map_id' _).symm.trans (List.map_congr_left fun c hc => (hdigit c hc).2)

end

/-- R135 item 3: padded strings of one policy are in code-unit order as their values are. -/
theorem stringLt_digitChars {l : Lut} (hl : alphabetValid l.radix l.romV2C = true) {w : Policy} {u v : Nat}
    (hu : u ≤ w.maxValue) (hv : v ≤ w.maxValue) :
    stringLt ((digits l.radix w.maxLen u).map l.char) ((digits l.radix w.maxLen v).map l.char) = true ↔
      u < v := by
  rw [stringLt_map_char hl (fun _ => digits_lt l.radix_pos) (fun _ => digits_lt l.radix_pos) (by simp),
    digitsValue_digits (hu.trans_lt (l.maxValue_lt w)), digitsValue_digits (hv.trans_lt (l.maxValue_lt w))]

/-! The statements -/

/-- Settles O21: the fold of the digits is both the value and the sum, and a digit of radix 64 is a slice of
six bits, of which the top one has only four or two below 2^64 or 2^32. -/
theorem digitExpansionIsExact : Obligations.DigitExpansionIsExact := by
  refine ⟨fun p w v hv => ⟨fun i hi => ?_, ?_⟩, fun w v i _ hi => digits_radix64_getD v hi,
    fun v => ?_, fun v hv => ?_⟩
  · rw [digits_getD v hi]
    exact ⟨rfl, Nat.mod_lt _ (profile_radix_pos p)⟩
  · have hsum := digitsValue_eq_sum p.radix (digits p.radix w.maxLen v)
    rwa [digitsValue_digits (hv.trans_lt (maxValue_lt_radix_pow p w)), digits_length] at hsum
  · rw [digits_radix64_getD v (by decide)]
    exact extractLsb'_six_of_lt (by decide) v.isLt
  · rw [digits_radix64_getD v (by decide)]
    exact extractLsb'_six_of_lt (by decide) (Nat.lt_succ_of_le hv)

/-- Settles O22: the padded encode of the 32-bit policy, on both sides of `MAX32`. -/
theorem encp32WritesSixDigitsOrRejects : Obligations.Encp32WritesSixDigitsOrRejects := by
  refine ⟨decode_encode .encp32, fun s l q rest hlut hq => ⟨fun hle => ?_, fun hgt => ?_⟩⟩
  · obtain ⟨str, hexec, hslots, hzero⟩ := exec_encpOf_slots (w := .w32) hlut hq hle
    exact ⟨str, hexec, hslots, fun i hi _ => hzero i hi⟩
  · exact exec_encode_of_gt (w := .w32) (.inl rfl) hlut hq hgt

/-- Settles O23: the padded encode of the 64-bit policy, in whose range every `val_in` is. -/
theorem encp64WritesElevenDigits : Obligations.Encp64WritesElevenDigits := by
  refine ⟨decode_encode .encp64, fun s l q rest hlut hq => ?_⟩
  obtain ⟨str, hexec, hslots, -⟩ := exec_encpOf_slots (w := .w64) hlut hq (valIn_le_w64 q.req)
  exact ⟨str, hexec, hslots⟩

/-- Settles O24: the unpadded encode of the 32-bit policy, on both sides of `MAX32`. -/
theorem encu32StripsLeadingZeroDigits : Obligations.Encu32StripsLeadingZeroDigits := by
  refine ⟨decode_encode .encu32, fun s l q rest hlut hq => ⟨fun hle => ?_, fun hgt => ?_⟩⟩
  · obtain ⟨str, k, hk, hzeros, hfirst, hexec, hslots, hzero⟩ := exec_encuOf_slots (w := .w32) hlut hq hle
    exact ⟨str, k, hk, hzeros, hfirst, hexec, hslots, fun j hj _ => hzero j hj⟩
  · exact exec_encode_of_gt (w := .w32) (.inr rfl) hlut hq hgt

/-- Settles O25: the unpadded encode of the 64-bit policy, in whose range every `val_in` is. -/
theorem encu64StripsLeadingZeroDigits : Obligations.Encu64StripsLeadingZeroDigits := by
  refine ⟨decode_encode .encu64, fun s l q rest hlut hq => ?_⟩
  obtain ⟨str, k, hk, hzeros, hfirst, hexec, hslots, hzero⟩ :=
    exec_encuOf_slots (w := .w64) hlut hq (valIn_le_w64 q.req)
  exact ⟨str, k, hk, hzeros, hfirst, hexec, hslots, fun j hj _ => hzero j hj⟩

/-- Settles O26: the padded string is the characters of `L_W` digits, whose value is the value encoded. -/
theorem paddedRoundTrip : Obligations.PaddedRoundTrip := by
  intro w s l q rest hlut hq hle
  refine ⟨_, exec_of_presents hq hlut (responseOf_encpOf_of_le hlut hle), fun s' q' rest' hlut' hq' hlen hstr => ?_⟩
  have hne : digits l.radix w.maxLen q.req.valIn.toNat ≠ [] := by
    rw [← List.length_pos_iff, digits_length]
    cases w <;> decide
  exact exec_decOf_of_finishString hlut' hq' (fun _ => digits_lt l.radix_pos) hne (digits_length ..).le
    (digitsValue_digits (hle.trans_lt (l.maxValue_lt w))) hle hlen hstr

/-- Settles O27: strings of one length sort like their values; equal strings of two values would be each
smaller than the other. -/
theorem paddedStringsSortLikeValues : Obligations.PaddedStringsSortLikeValues := by
  intro w s l q rest s' q' rest' r r' hlut hlut' hq hq' hle hle' hexec hexec'
  obtain rfl := response_of_exec hlut hq (responseOf_encpOf_of_le hlut hle) hexec
  obtain rfl := response_of_exec hlut' hq' (responseOf_encpOf_of_le hlut' hle') hexec'
  obtain ⟨hvalid, -⟩ := lut_valid hlut
  have hlt := stringLt_digitChars hvalid hle hle'
  have hgt := stringLt_digitChars hvalid hle' hle
  refine ⟨?_, fun heq => ?_, fun heq => by rw [heq]⟩
  · rw [responseText_finishString (digitChars_length_le ..), responseText_finishString (digitChars_length_le ..), hlt]
  · have htext := congrArg responseText heq
    rw [responseText_finishString (digitChars_length_le ..),
      responseText_finishString (digitChars_length_le ..)] at htext
    rw [htext] at hlt hgt
    have hself := hlt.symm.trans hgt
    exact BitVec.eq_of_toNat_eq (by omega)

/-- Settles O28: the stripped digits are the digits without the zero digits at their front, whose character
is `-`. -/
theorem unpaddedIsPaddedStripped : Obligations.UnpaddedIsPaddedStripped := by
  intro w s l q rest r r' hlut hq hle hexec hexec'
  obtain rfl := response_of_exec hlut hq (responseOf_encpOf_of_le hlut hle) hexec
  obtain rfl := response_of_exec hlut hq (responseOf_encuOf_of_le hlut hle) hexec'
  obtain ⟨hvalid, -⟩ := lut_valid hlut
  rw [responseText_finishString (digitChars_length_le ..), responseText_finishString (strippedChars_length_le ..),
    strippedDigits_eq_dropWhile, dropWhile_map_char hvalid fun _ => digits_lt l.radix_pos]

/-- Settles O29: `len_out` is the number of stripped digits. -/
theorem unpaddedLengthIsLeast : Obligations.UnpaddedLengthIsLeast := by
  intro w s l q rest hlut hq hle
  have hlen := finishString_lenOut (strippedChars_length_le l w q.req.valIn.toNat)
  rw [List.length_map] at hlen
  refine ⟨_, exec_of_presents hq hlut (responseOf_encuOf_of_le hlut hle), rfl, ?_, fun n => ?_⟩
  · rw [hlen]
    exact strippedDigits_length_le ..
  · rw [hlen]
    exact lt_pow_iff_strippedDigits_length_le l.radix_pos (hle.trans_lt (l.maxValue_lt w)) n

/-- Settles O30: the unpadded string is the characters of the stripped digits, whose value is the value
encoded; from 1 on there is at least one. -/
theorem unpaddedRoundTrip : Obligations.UnpaddedRoundTrip := by
  intro w s l q rest hlut hq hpos hle
  have hfits := hle.trans_lt (l.maxValue_lt w)
  refine ⟨_, exec_of_presents hq hlut (responseOf_encuOf_of_le hlut hle), fun s' q' rest' hlut' hq' hlen hstr => ?_⟩
  exact exec_decOf_of_finishString hlut' hq' (fun _ => strippedDigits_lt l.radix_pos)
    (List.length_pos_iff.1 (strippedDigits_length l.radix_pos hpos hfits).1) (strippedDigits_length_le ..)
    (digitsValue_strippedDigits hfits) hle hlen hstr

/-- Settles O31: every digit of 0 is stripped; the decoder rejects the empty operand (D8) and reads the one
digit `-` as 0. -/
theorem unpaddedZeroIsEmpty : Obligations.UnpaddedZeroIsEmpty := by
  intro w s l q rest hlut hq hzero
  have hvalue : q.req.valIn.toNat = 0 := by rw [hzero]; rfl
  have hresponse := responseOf_encuOf_of_le (w := w) (q := q) hlut (hvalue ▸ Nat.zero_le _)
  rw [hvalue, strippedDigits_zero] at hresponse
  refine ⟨exec_of_presents hq hlut hresponse, fun s' q' rest' hlut' hq' => ⟨fun hlen => ?_, fun hlen hslot => ?_⟩⟩
  · refine exec_of_presents hq' hlut' ?_
    rw [responseOf_decOf]
    exact congrArg Except.ok (decodeString_of_empty w l (by rw [hlen]; rfl))
  · have hlenIn : q'.req.lenIn.toNat = 1 := by rw [hlen]; rfl
    have hop : stringOperand q'.req = [0].map l.char := by
      rw [stringOperand_of_lenIn_one hlenIn, hslot, List.map_singleton, char_zero (lut_valid hlut).1]
    exact exec_decOf_of_chars hlut' hq' (by simpa using l.radix_pos) (List.cons_ne_nil 0 [])
      (by cases w <;> decide) (by simp [digitsValue_cons]) (Nat.zero_le _) hlenIn hop

/-- Settles O32: an operand that decodes is a digit string, so it is its value's stripped digits with zero
digits before them, whose character is `-`. -/
theorem unpaddedIsTheShortest : Obligations.UnpaddedIsTheShortest := by
  intro w s l q rest r s' q' rest' r' hlut hlut' hq hq' _ hle hexec hexec' hstatus hvalue
  obtain rfl := response_of_exec hlut hq (responseOf_encuOf_of_le hlut hle) hexec
  obtain rfl := response_of_exec hlut' hq' (by rw [responseOf_decOf]) hexec'
  obtain ⟨ds, hds, hn, hop, hmax, hdec⟩ := decodeString_eq_ok (lut_valid hlut) hstatus
  have hds' : digitsValue l.radix ds = q.req.valIn.toNat := by
    rw [← hvalue, hdec]
    refine (Nat.mod_eq_of_lt (hmax.trans_lt ?_)).symm
    cases w <;> decide
  obtain ⟨k, hk⟩ := eq_replicate_append_strippedDigits l.radix_pos hds hn
  rw [hds'] at hk
  refine ⟨k, ?_⟩
  rw [hop, hk, responseText_finishString (strippedChars_length_le ..), List.map_append, List.map_replicate,
    char_zero (lut_valid hlut).1]

/-- Settles O33: the two requests on the unit of the reset machine. -/
theorem unpaddedStringsDoNotSort : Obligations.UnpaddedStringsDoNotSort :=
  ⟨Lut.ofProfile .r64, finishString [0x7A], finishString [0x2E, 0x2D],
    lut_eq_ok.2 ⟨rfl, Lut.ofProfile_valid .r64⟩, rfl, rfl, rfl, rfl, rfl⟩

end Sys2Proof.Machine
end

section
/-! PROOFS. The decoder family (spec/43_decoder.md): the value of the string operand (R158), what DEC32 and DEC64
answer (R151, R155-R161), the strings they accept (R162-R164) and how the two widths agree (R165). -/

namespace Sys2Proof.Machine

/-! The value of the string operand (R13, R158) -/

/-- R74: the code units of the string operand are in the alphabet if its slots are. -/
theorem stringOperand_found_iff {l : Lut} {q : Request} (hn : q.lenIn.toNat ≤ 11) :
    (∀ c ∈ stringOperand q, (readC2V l c).found = true) ↔
      ∀ i, i < q.lenIn.toNat → operandFound l q i = true :=
  stringOperand_forall hn

/-- R158: digits below the radix give a value below `R^n`. -/
theorem operandValue_lt_pow {l : Lut} {q : Request} (hl : l.Valid) (hn : q.lenIn.toNat ≤ 11)
    (hfound : ∀ i, i < q.lenIn.toNat → operandFound l q i = true) :
    operandValue l q < l.radix ^ q.lenIn.toNat := by
  have hdigits : ∀ d ∈ (stringOperand q).map fun c => (readC2V l c).digit.toNat, d < l.radix :=
    List.forall_mem_map.2 fun c hc => readC2V_digit_lt hl ((stringOperand_found_iff hn).2 hfound c hc)
  have hlt := digitsValue_lt hdigits
  rwa [← operandValue_eq hn, List.length_map, stringOperand_length, Nat.min_eq_left hn] at hlt

/-- R158: eleven digits of the larger radix stay below 2^67. -/
theorem radix_pow_lt_two_pow_67 (l : Lut) {n : Nat} (hn : n ≤ 11) : l.radix ^ n < 2 ^ 67 :=
  calc l.radix ^ n
    _ ≤ l.radix ^ 11 := Nat.pow_le_pow_right l.radix_pos hn
    _ ≤ 66 ^ 11 := Nat.pow_le_pow_left l.radix_le 11
    _ < 2 ^ 67 := by norm_num

theorem policy_maxValue_lt (w : Policy) : w.maxValue < 2 ^ 64 := by cases w <;> decide

/-! DECODE_W, slot by slot (R151, R157-R159) -/

/-- DECODE_W on a string of valid length with every slot in the alphabet. -/
theorem decodeString_of_operandFound {w : Policy} {l : Lut} {q : Request} (h0 : 0 < q.lenIn.toNat)
    (hn : q.lenIn.toNat ≤ w.maxLen) (hfound : ∀ i, i < q.lenIn.toNat → operandFound l q i = true) :
    decodeString w l q =
      if w.maxValue < operandValue l q then raiseRangeOverflow w (operandValue l q)
      else finishValue (operandValue l q) := by
  have h11 := hn.trans (policy_maxLen_le w)
  rw [operandValue_eq h11]
  exact decodeString_of_found h0 hn ((stringOperand_found_iff h11).2 hfound)

/-- DECODE_W on a string of valid length whose first slot outside the alphabet is slot `i`. -/
theorem decodeString_of_operandFound_eq_false {w : Policy} {l : Lut} {q : Request} {i : Nat}
    (hn : q.lenIn.toNat ≤ w.maxLen) (hi : i < q.lenIn.toNat)
    (hbefore : ∀ j, j < i → operandFound l q j = true) (hmissed : operandFound l q i = false) :
    decodeString w l q = raiseInvalidCharacter i (slotAt q.strIn i) := by
  have h11 := policy_maxLen_le w
  have hlen : i < (stringOperand q).length := by
    rw [stringOperand_length]
    omega
  have hsplit : stringOperand q =
      (stringOperand q).take i ++ slotAt q.strIn i :: (stringOperand q).drop (i + 1) := by
    rw [← stringOperand_getElem q i hlen, List.getElem_cons_drop, List.take_append_drop]
  have hfound : ∀ c ∈ (stringOperand q).take i, (readC2V l c).found = true := by
    intro c hc
    obtain ⟨j, hj, rfl⟩ := List.mem_take_iff_getElem.1 hc
    rw [stringOperand_getElem]
    exact hbefore j (hj.trans_le (Nat.min_le_left _ _))
  rw [decodeString_of_not_found (Nat.zero_lt_of_lt hi) hn hsplit hfound hmissed,
    List.length_take_of_le hlen.le]

/-- Of the slots of a string, all are in the alphabet or there is a first one that is not (R157). -/
theorem operandFound_cases (l : Lut) (q : Request) (n : Nat) :
    (∀ i, i < n → operandFound l q i = true) ∨
    ∃ i, i < n ∧ (∀ j, j < i → operandFound l q j = true) ∧ operandFound l q i = false := by
  induction n with
  | zero => exact .inl fun i hi => absurd hi (Nat.not_lt_zero i)
  | succ n ih =>
    rcases ih with hfound | ⟨i, hi, hfirst⟩
    · cases hlast : operandFound l q n with
      | true => exact .inl (Nat.forall_lt_succ_right.2 ⟨hfound, hlast⟩)
      | false => exact .inr ⟨n, Nat.lt_succ_self n, hfound, hlast⟩
    · exact .inr ⟨i, hi.trans (Nat.lt_succ_self n), hfirst⟩

/-- R155, R71: `err_len` is the whole `len_in`. -/
theorem raiseLengthExceeded_toNat (w : Policy) (n : BitVec 32) :
    raiseLengthExceeded w n.toNat =
      { zeroResponse with status := 2, errLen := n, errMax := BitVec.ofNat 8 w.maxLen } := by
  rw [raiseLengthExceeded, BitVec.ofNat_toNat, BitVec.setWidth_eq]; rfl

/-! What the decode operations answer -/

section
variable {w : Policy} {s : State} {l : Lut} {q : PortRequest} {rest : List PortRequest}

theorem exec_decOf (hlut : s.lut = .ok l) (hq : s.Presents q rest) :
    exec (decOf w) s = .next (s.respond q.port (decodeString w l q.req) rest) :=
  exec_of_presents hq hlut (by rw [responseOf_decOf])

/-- R160, R161: the answer of DEC_W, cause by cause in the order of R151. -/
theorem exec_decOf_firstCause (hlut : s.lut = .ok l) (hq : s.Presents q rest) :
    (w.maxLen < q.req.lenIn.toNat → exec (decOf w) s = .next (s.respond q.port
      { zeroResponse with status := 2, errLen := q.req.lenIn, errMax := BitVec.ofNat 8 w.maxLen } rest)) ∧
    (q.req.lenIn = 0 → exec (decOf w) s = .next (s.respond q.port
      { zeroResponse with status := 4 } rest)) ∧
    (q.req.lenIn ≠ 0 → q.req.lenIn.toNat ≤ w.maxLen →
      (∀ i, i < q.req.lenIn.toNat → (∀ j, j < i → operandFound l q.req j = true) →
        operandFound l q.req i = false → exec (decOf w) s = .next (s.respond q.port
          { zeroResponse with
            status := 1, errPos := BitVec.ofNat 4 i, errChar := slotAt q.req.strIn i } rest)) ∧
      ((∀ i, i < q.req.lenIn.toNat → operandFound l q.req i = true) →
        operandValue l q.req < 2 ^ 72 ∧
        (operandValue l q.req ≤ w.maxValue → exec (decOf w) s = .next (s.respond q.port
          { zeroResponse with status := 0, valOut := BitVec.ofNat 64 (operandValue l q.req) } rest)) ∧
        (w.maxValue < operandValue l q.req → exec (decOf w) s = .next (s.respond q.port
          { zeroResponse with
            status := 3, errVal := BitVec.ofNat 72 (operandValue l q.req),
            errMaxval := BitVec.ofNat 64 w.maxValue } rest)))) := by
  rw [exec_decOf hlut hq]
  refine ⟨fun hlong => ?_, fun hempty => ?_, fun hne hn => ⟨fun i hi hbefore hmissed => ?_, fun hfound => ?_⟩⟩
  · rw [decodeString_of_long l hlong, raiseLengthExceeded_toNat]
  · rw [decodeString_of_empty w l (congrArg BitVec.toNat hempty)]; rfl
  · rw [decodeString_of_operandFound_eq_false hn hi hbefore hmissed]; rfl
  · have h0 : 0 < q.req.lenIn.toNat := Nat.pos_of_ne_zero fun h => hne (BitVec.eq_of_toNat_eq h)
    have h11 := hn.trans (policy_maxLen_le w)
    have hlt : operandValue l q.req < 2 ^ 67 :=
      (operandValue_lt_pow (lut_valid hlut) h11 hfound).trans (radix_pow_lt_two_pow_67 l h11)
    rw [decodeString_of_operandFound h0 hn hfound]
    refine ⟨hlt.trans (by norm_num), fun hle => ?_, fun hgt => ?_⟩
    · rw [if_neg (Nat.not_lt.2 hle)]; rfl
    · rw [if_pos hgt]; rfl

end

/-! The strings DECODE_W accepts (R162-R164) -/

/-- R162: a nonempty string of at most `L_W` alphabet characters with a value of at most `MAX_W`. -/
def DecodeAccepts (w : Policy) (l : Lut) (q : Request) : Prop :=
  1 ≤ q.lenIn.toNat ∧ q.lenIn.toNat ≤ w.maxLen ∧
    (∀ i, i < q.lenIn.toNat → operandFound l q i = true) ∧ operandValue l q ≤ w.maxValue

theorem decodeString_of_accepts {w : Policy} {l : Lut} {q : Request} (h : DecodeAccepts w l q) :
    decodeString w l q = finishValue (operandValue l q) := by
  obtain ⟨h0, hn, hfound, hle⟩ := h
  rw [decodeString_of_operandFound h0 hn hfound, if_neg (Nat.not_lt.2 hle)]

/-- R163: `val_out` holds the whole value. -/
theorem decodeString_valOut_of_accepts {w : Policy} {l : Lut} {q : Request} (h : DecodeAccepts w l q) :
    (decodeString w l q).valOut.toNat = operandValue l q := by
  rw [decodeString_of_accepts h]
  obtain ⟨-, -, -, hle⟩ := h
  exact Nat.mod_eq_of_lt (hle.trans_lt (policy_maxValue_lt w))

/-- R164: a string that is not accepted is answered by one of the four errors, which write no result. -/
theorem decodeString_of_not_accepts {w : Policy} {l : Lut} {q : Request} (h : ¬DecodeAccepts w l q) :
    (decodeString w l q).status ≠ 0 ∧ (decodeString w l q).valOut = 0 ∧
      (decodeString w l q).lenOut = 0 ∧ (decodeString w l q).strOut = slotsOf [] := by
  rcases Nat.lt_or_ge w.maxLen q.lenIn.toNat with hlong | hn
  · rw [decodeString_of_long l hlong]
    exact ⟨show statusCode .lengthExceeded ≠ 0 by decide, rfl, rfl, rfl⟩
  rcases Nat.eq_zero_or_pos q.lenIn.toNat with hempty | h0
  · rw [decodeString_of_empty w l hempty]
    exact ⟨show statusCode .emptyInput ≠ 0 by decide, rfl, rfl, rfl⟩
  rcases operandFound_cases l q q.lenIn.toNat with hfound | ⟨i, hi, hbefore, hmissed⟩
  · have hgt : w.maxValue < operandValue l q := Nat.lt_of_not_le fun hle => h ⟨h0, hn, hfound, hle⟩
    rw [decodeString_of_operandFound h0 hn hfound, if_pos hgt]
    exact ⟨show statusCode .rangeOverflow ≠ 0 by decide, rfl, rfl, rfl⟩
  · rw [decodeString_of_operandFound_eq_false hn hi hbefore hmissed]
    exact ⟨show statusCode .invalidCharacter ≠ 0 by decide, rfl, rfl, rfl⟩

theorem decodeString_status_eq_zero_iff {w : Policy} {l : Lut} {q : Request} :
    (decodeString w l q).status = 0 ↔ DecodeAccepts w l q := by
  refine ⟨fun hstatus => ?_, fun h => by rw [decodeString_of_accepts h]; rfl⟩
  by_contra h
  exact (decodeString_of_not_accepts h).1 hstatus

/-- R165: the smaller width accepts what the larger one does, within its own length and range. -/
theorem decodeAccepts_w32_iff {l : Lut} {q : Request} :
    DecodeAccepts .w32 l q ↔
      DecodeAccepts .w64 l q ∧ q.lenIn.toNat ≤ 6 ∧ operandValue l q ≤ 0xFFFFFFFF := by
  constructor
  · rintro ⟨h0, hn, hfound, hle⟩
    exact ⟨⟨h0, hn.trans (by decide), hfound, hle.trans (by decide)⟩, hn, hle⟩
  · rintro ⟨⟨h0, -, hfound, -⟩, hn, hle⟩
    exact ⟨h0, hn, hfound, hle⟩

/-! A zero digit at the front (R162) -/

section
variable {w : Policy} {l : Lut} {q q' : Request} (hlen : q'.lenIn.toNat = q.lenIn.toNat + 1)
  (hzero : slotAt q'.strIn 0 = 0x2D)
  (hshift : ∀ i, i < q.lenIn.toNat → slotAt q'.strIn (i + 1) = slotAt q.strIn i)
include hzero

/-- R28 item 4, R26: `-` is found, with digit 0. -/
theorem operand_of_dash (hl : l.Valid) : operandFound l q' 0 = true ∧ operandDigit l q' 0 = 0 := by
  rw [operandFound, operandDigit, hzero, ← char_zero hl.1]
  exact readC2V_char hl l.radix_pos

include hshift

/-- Slots found before slot `n` are found one further, behind the `-`. -/
theorem operandFound_of_dash (hl : l.Valid) {n : Nat} (hn : n ≤ q.lenIn.toNat)
    (hfound : ∀ i, i < n → operandFound l q i = true) :
    ∀ i, i < n + 1 → operandFound l q' i = true := by
  intro i hi
  cases i with
  | zero => exact (operand_of_dash hzero hl).1
  | succ i =>
    have hi := Nat.lt_of_succ_lt_succ hi
    rw [operandFound, hshift i (hi.trans_le hn)]
    exact hfound i hi

include hlen

/-- R13: a zero digit at the front adds nothing to the value. -/
theorem operandValue_of_dash (hl : l.Valid) : operandValue l q' = operandValue l q := by
  rw [operandValue, hlen, Finset.sum_range_succ', (operand_of_dash hzero hl).2, zero_mul, add_zero]
  refine Finset.sum_congr rfl fun i hi => ?_
  rw [operandDigit, hshift i (Finset.mem_range.1 hi), ← operandDigit, Nat.add_sub_cancel, Nat.add_comm i,
    ← Nat.sub_sub]

/-- R162, R157: with a `-` in front, DECODE_W answers the same, or finds the same code unit invalid one
position further. -/
theorem decodeString_of_dash (hl : l.Valid) (h0 : 1 ≤ q.lenIn.toNat) (hn : q.lenIn.toNat + 1 ≤ w.maxLen) :
    (decodeString w l q).status ≠ 1 ∧ decodeString w l q' = decodeString w l q ∨
    ∃ i c, i + 1 < w.maxLen ∧ decodeString w l q = raiseInvalidCharacter i c ∧
      decodeString w l q' = raiseInvalidCharacter (i + 1) c := by
  have hn' : q'.lenIn.toNat ≤ w.maxLen := hlen ▸ hn
  rcases operandFound_cases l q q.lenIn.toNat with hfound | ⟨i, hi, hbefore, hmissed⟩
  · have hfound' := operandFound_of_dash hzero hshift hl le_rfl hfound
    rw [← hlen] at hfound'
    rw [decodeString_of_operandFound (by omega) hn' hfound', operandValue_of_dash hlen hzero hshift hl,
      decodeString_of_operandFound h0 (Nat.le_of_succ_le hn) hfound]
    refine .inl ⟨?_, rfl⟩
    split
    · exact show statusCode .rangeOverflow ≠ 1 by decide
    · exact show statusCode .ok ≠ 1 by decide
  · have hbefore' := operandFound_of_dash hzero hshift hl hi.le hbefore
    have hmissed' : operandFound l q' (i + 1) = false := by rwa [operandFound, hshift i hi]
    refine .inr ⟨i, slotAt q.strIn i, by omega,
      decodeString_of_operandFound_eq_false (Nat.le_of_succ_le hn) hi hbefore hmissed, ?_⟩
    rw [decodeString_of_operandFound_eq_false hn' (by omega) hbefore' hmissed', hshift i hi]

end

/-! The statements -/

/-- Settles O34: the answer of DEC_W under the 32-bit policy. -/
theorem dec32AnswersTheFirstCause : Obligations.Dec32AnswersTheFirstCause :=
  ⟨decode_encode .dec32, fun _ _ _ _ hlut hq => exec_decOf_firstCause (w := .w32) hlut hq⟩

/-- Settles O35: the answer of DEC_W under the 64-bit policy. -/
theorem dec64AnswersTheFirstCause : Obligations.Dec64AnswersTheFirstCause :=
  ⟨decode_encode .dec64, fun _ _ _ _ hlut hq => exec_decOf_firstCause (w := .w64) hlut hq⟩

/-- Settles O36: the digits found are below the radix, and `66^11` is below 2^67. -/
theorem accumulatorNeverWraps : Obligations.AccumulatorNeverWraps := by
  intro w s l q hlut hn hfound
  have h11 := hn.trans (policy_maxLen_le w)
  have hlt := operandValue_lt_pow (lut_valid hlut) h11 hfound
  exact ⟨hlt, hlt.trans (radix_pow_lt_two_pow_67 l h11)⟩

/-- Settles O37: status OK is `DecodeAccepts`, and the four errors write no result. -/
theorem decoderAcceptsExactly : Obligations.DecoderAcceptsExactly := by
  intro w s l q rest hlut hq
  refine ⟨_, exec_decOf hlut hq, decodeString_status_eq_zero_iff, fun hstatus => ?_, fun hstatus => ?_⟩
  · exact decodeString_valOut_of_accepts (decodeString_status_eq_zero_iff.1 hstatus)
  · exact (decodeString_of_not_accepts (mt decodeString_status_eq_zero_iff.2 hstatus)).2

/-- Settles O38: `-` is found with digit 0, so the slots behind it decide the answer; the position of one not
found fits its four bits. -/
theorem leadingZeroDigitIsIgnored : Obligations.LeadingZeroDigitIsIgnored := by
  intro w s l q rest s' q' rest' hlut hlut' hq hq' h0 hn hlen hzero hshift
  refine ⟨_, _, exec_decOf hlut hq, exec_decOf hlut' hq', ?_⟩
  obtain ⟨hstatus, hsame⟩ | ⟨i, c, hi, hdec, hdec'⟩ :=
    decodeString_of_dash (w := w) hlen hzero hshift (lut_valid hlut) h0 hn
  · exact ⟨fun _ => hsame, fun h => absurd h hstatus⟩
  · rw [hdec, hdec']
    have h11 := policy_maxLen_le w
    refine ⟨fun h => absurd rfl h, fun _ => ⟨rfl, ?_⟩⟩
    simp only [raiseInvalidCharacter, BitVec.toNat_ofNat]
    omega

/-- Settles O39: both widths accept by `DecodeAccepts`, and each accepted value is the operand's. -/
theorem widthsDecodeConsistently : Obligations.WidthsDecodeConsistently := by
  intro s l q rest hlut hq
  refine ⟨_, _, exec_decOf (w := .w32) hlut hq, exec_decOf (w := .w64) hlut hq, ?_, fun h32 h64 => ?_⟩
  · rw [decodeString_status_eq_zero_iff, decodeString_status_eq_zero_iff, decodeAccepts_w32_iff]
    refine and_congr_right fun h64 => ?_
    rw [decodeString_valOut_of_accepts h64]
  · rw [decodeString_of_accepts (decodeString_status_eq_zero_iff.1 h32),
      decodeString_of_accepts (decodeString_status_eq_zero_iff.1 h64)]

end Sys2Proof.Machine
end

section
/-! PROOFS. The exceptions family (spec/60_exceptions.md): the statuses each operation answers with (R202), what
the response to a request depends on (R206, R207, R221), and that under the invariant nothing stops the machine
(R224). -/

namespace Sys2Proof.Machine

/-! The statuses (R70, R202) -/

/-- R70: the nine names have the codes 0 to 8. -/
theorem statusCode_toNat_le (st : Status) : (statusCode st).toNat ≤ 8 := by cases st <;> decide

/-! What the response depends on (R207) -/

/-- R207: a request has one response from a valid unit, legal or not, which every machine of this unit gives. -/
theorem exists_response_of_valid {l : Lut} (hl : l.Valid) (req : Request) :
    ∃ r, ∀ (s : State) (q : PortRequest) (rest : List PortRequest), s.rst = false → s.lut = .ok l →
      s.Presents q rest → q.req = req → serve s = .next (s.respond q.port r rest) := by
  cases hd : decode req.cmd with
  | ok i =>
    obtain ⟨r, hr⟩ := responseOf_ok i hl.1 req
    refine ⟨r, fun s q rest hrst hlut hq hreq => ?_⟩
    subst hreq
    rw [serve_of_decode hrst hq hd]
    exact exec_of_presents hq hlut hr
  | error e =>
    refine ⟨{ zeroResponse with status := 8 }, fun s q rest hrst hlut hq hreq => ?_⟩
    subst hreq
    exact serve_illegal hrst hlut hq hd

/-- R20, R100: where the ROM pair holds the profile's contents, the profile says which unit answers. -/
theorem lut_of_profile {s : State} {p : Profile} (hroms : s.RomsHoldProfile) (hp : s.profile = some p) :
    s.lut = .ok (Lut.ofProfile p) := by
  obtain ⟨p', hblock⟩ := hroms
  rw [State.profile, hblock] at hp
  obtain rfl : p' = p := Option.some.inj hp
  exact lut_eq_ok.2 ⟨hblock, Lut.ofProfile_valid p'⟩

/-- Such a machine has a profile (R5). -/
theorem exists_profile {s : State} (hroms : s.RomsHoldProfile) : ∃ p, s.profile = some p := by
  obtain ⟨p, hblock⟩ := hroms
  exact ⟨p, by rw [State.profile, hblock]; rfl⟩

/-! Nothing stops the machine (R54, R224) -/

/-- A request transfer is not refused, since the unit is valid, and reads no missing ROM entry. -/
theorem serve_exists_next {s : State} (hroms : s.RomsHoldProfile) : ∃ t, serve s = .next t := by
  cases hf : fetchCommand s with
  | none => exact ⟨s, by rw [serve, hf]⟩
  | some c =>
    obtain ⟨hrst, q, rest, hq, -⟩ := fetchCommand_eq_some hf
    obtain ⟨l, hlut, -, hvalid⟩ := lut_of_romsHoldProfile hroms
    obtain ⟨r, hr⟩ := exists_response_of_valid hvalid q.req
    exact ⟨_, hr s q rest hrst hlut hq rfl⟩

/-- A response transfer finds no reserved status, since every response in flight is well formed (R70). -/
theorem deliverOn_exists_next {s : State} (h : s.Inv) (port : Nat) : ∃ t, deliverOn s port = .next t := by
  obtain ⟨-, -, -, hflight, -⟩ := h
  unfold deliverOn
  split
  · split
    · exact ⟨_, rfl⟩
    · next a rest ho =>
      obtain ⟨before, after, hsplit, -, -, -⟩ := oldestOn_eq_some ho
      have ha : a ∈ s.inFlight := by rw [hsplit]; simp
      rw [statusReserved_of_responseWf (hflight a ha)]
      exact ⟨_, rfl⟩
  · exact ⟨_, rfl⟩

/-- Of the moves, only the two transfers could stop the machine. -/
theorem move_exists_next {s : State} (h : s.Inv) (m : Move) : ∃ t, move m s = .next t := by
  cases m with
  | issue q => exact ⟨_, rfl⟩
  | driveRspReady port level => exact ⟨_, rfl⟩
  | driveRst level => exact ⟨_, rfl⟩
  | serve => exact serve_exists_next h.1
  | deliver port => exact deliverOn_exists_next h port
  | cycle => exact ⟨_, rfl⟩

/-! The statements -/

/-- Settles O4: whatever a step does, neither transfer can fault or be refused. -/
theorem noStopUnderTheInvariant : Obligations.NoStopUnderTheInvariant := by
  intro s h
  rcases step_cases s with ⟨-, e | ⟨port, e⟩ | e⟩ | ⟨m, rest, -, e⟩ <;> rw [e]
  · exact serve_exists_next h.1
  · exact deliverOn_exists_next h port
  · exact ⟨_, rfl⟩
  · exact move_exists_next (s := { s with agenda := rest }) h m

/-- Settles O40: a valid unit answers every operation, with one of its statuses, all named. -/
theorem statusesByOperation : Obligations.StatusesByOperation := by
  intro i s l q rest hlut hq
  obtain ⟨hvalid, -⟩ := lut_valid hlut
  obtain ⟨r, hr⟩ := responseOf_ok i hvalid q.req
  obtain ⟨-, st, hst, hstatus⟩ := responseOf_wf hvalid hr
  exact ⟨r, exec_of_presents hq hlut hr, hstatus ▸ statusCode_toNat_le st, st, hst, hstatus⟩

/-- Settles O43: two such machines of one profile have the same unit, which has one response to the request. -/
theorem responseDependsOnTheRequestOnly : Obligations.ResponseDependsOnTheRequestOnly := by
  intro s s' q rest q' rest' hroms hroms' hprofile hrst hrst' hq hq' hreq
  obtain ⟨p, hp⟩ := exists_profile hroms
  have hlut := lut_of_profile hroms hp
  have hlut' := lut_of_profile hroms' (hprofile ▸ hp)
  obtain ⟨r, hr⟩ := exists_response_of_valid (Lut.ofProfile_valid p) q.req
  exact ⟨r, hr s q rest hrst hlut hq rfl, hr s' q' rest' hrst' hlut' hq' hreq.symm⟩

/-- Settles O11: the request transfer of an illegal command is one transaction with a constant answer. -/
theorem illegalCommandAnswersIllegalOp : Obligations.IllegalCommandAnswersIllegalOp :=
  fun _ _ _ _ _ => serve_illegal

end Sys2Proof.Machine
end

section
/-! PROOFS. The reset and hazards family (spec/70_reset_and_hazards.md): what `rst` blocks and drops (R241-R243),
the two handshakes (R246, R247), the latency (R249), and that every request is answered and delivered (R248). -/

namespace Sys2Proof.Machine

/-! The signals and the response transfer (R241, R247) -/

/-- `rsp_valid` of a port is 1 when the oldest response in flight on it has waited its latency (R241, R249). -/
theorem rspValid_iff {s : State} {port : Nat} :
    s.rspValid port = true ↔
      s.rst = false ∧ ∃ a rest, oldestOn port s.inFlight = some (a, rest) ∧ a.latencyOver = true := by
  cases ho : oldestOn port s.inFlight with
  | none => simp [State.rspValid, ho]
  | some x =>
    obtain ⟨a, rest⟩ := x
    simp [State.rspValid, ho]

theorem rspValid_of_rst {s : State} (h : s.rst = true) (port : Nat) : s.rspValid port = false := by
  simp [State.rspValid, h]

theorem serve_of_rst {s : State} (h : s.rst = true) : serve s = .next s := by
  simp [serve, fetchCommand, State.reqReady, h]

theorem deliverOn_of_not_valid {s : State} {port : Nat} (h : s.rspValid port = false) :
    deliverOn s port = .next s := by
  simp [deliverOn, h]

theorem deliverOn_of_not_ready {s : State} {port : Nat} (h : s.rspReadyOn port = false) :
    deliverOn s port = .next s := by
  simp [deliverOn, h]

/-- The state after the response `a` in flight, between `before` and `after`, is delivered (R246). -/
def State.deliver (s : State) (before : List InFlight) (a : InFlight) (after : List InFlight) : State :=
  { s with inFlight := before ++ after, delivered := s.delivered ++ [a.toPortResponse] }

/-- A response transfer with both signals 1 delivers the oldest response of the port, or faults on a reserved
status (R247, log 11). -/
theorem deliverOn_of_handshake {s : State} {before after : List InFlight} {a : InFlight}
    (hs : s.inFlight = before ++ a :: after) (hb : ∀ b ∈ before, b.port ≠ a.port)
    (hv : s.rspValid a.port = true) (hr : s.rspReadyOn a.port = true) :
    deliverOn s a.port =
      if statusReserved a.rsp.status then .fault (.reservedStatus a.rsp.status.toNat)
      else .next (s.deliver before a after) := by
  have ho : oldestOn a.port s.inFlight = some (a, before ++ after) := hs ▸ oldestOn_append hb rfl
  simp only [deliverOn, hv, hr, ho, Bool.and_self, if_true]
  rfl

/-! The oldest response of a port, as the responses in flight change -/

theorem oldestOn_map_fst (port : Nat) (as : List InFlight) :
    (oldestOn port as).map Prod.fst = as.find? fun a => a.port = port := by
  induction as with
  | nil => rfl
  | cons x as ih =>
    by_cases hx : x.port = port
    · simp [oldestOn, hx]
    · simp only [oldestOn, hx, if_false, decide_false, List.find?_cons_of_neg, ← ih,
        Bool.false_eq_true, not_false_eq_true]
      cases oldestOn port as <;> rfl

/-- A response accepted later is not older (R246). -/
theorem oldestOn_append_left {port : Nat} {as bs : List InFlight} {a others}
    (h : oldestOn port as = some (a, others)) : oldestOn port (as ++ bs) = some (a, others ++ bs) := by
  obtain ⟨before, after, rfl, rfl, hp, hb⟩ := oldestOn_eq_some h
  simpa using oldestOn_append (after := after ++ bs) hb hp

/-- A delivery on another port leaves the oldest response of a port the oldest. -/
theorem oldestOn_remove_other {port : Nat} {before after : List InFlight} {a b : InFlight} {others}
    (hb : b.port ≠ port) (h : oldestOn port (before ++ b :: after) = some (a, others)) :
    ∃ others', oldestOn port (before ++ after) = some (a, others') := by
  have hfind : (oldestOn port (before ++ after)).map Prod.fst = some a := by
    have := congrArg (Option.map Prod.fst) h
    rw [oldestOn_map_fst] at this ⊢
    simpa [List.find?_append, List.find?_cons, hb] using this
  obtain ⟨⟨_, others'⟩, ho, rfl⟩ := Option.map_eq_some_iff.1 hfind
  exact ⟨others', ho⟩

/-! The levels of `rsp_ready` -/

theorem rspReadyOn_iff {s : State} {port : Nat} : s.rspReadyOn port = true ↔ port ∈ s.rspReady := by
  simp [State.rspReadyOn]

theorem driveRspReady_rspReadyOn (s : State) (port : Nat) (level : Bool) (p : Nat) :
    (driveRspReady s port level).rspReadyOn p = if p = port then level else s.rspReadyOn p := by
  cases level with
  | false =>
    by_cases hp : p = port <;> simp [driveRspReady, State.rspReadyOn, hp]
  | true =>
    by_cases hport : port ∈ s.rspReady
    · by_cases hp : p = port <;> simp [driveRspReady, State.rspReadyOn, hport, hp]
    · by_cases hp : p = port <;> simp [driveRspReady, State.rspReadyOn, hport, hp]

/-- A requester that drives `rsp_ready` changes no other field. -/
theorem driveRspReady_frame (s : State) (port : Nat) (level : Bool) :
    { driveRspReady s port level with rspReady := s.rspReady } = s := by
  unfold driveRspReady; split <;> [split; skip] <;> rfl

/-! Clock cycles (R249) -/

/-- A clock cycle changes no field but the responses in flight. -/
theorem passCycle_frame (s : State) (as : List InFlight) :
    { passCycle s with inFlight := as } = { s with inFlight := as } := by
  unfold passCycle; split <;> rfl

theorem passCycle_toPortResponse (s : State) :
    (passCycle s).inFlight.map InFlight.toPortResponse = s.inFlight.map InFlight.toPortResponse := by
  cases hrst : s.rst with
  | true => rw [passCycle_of_rst hrst]
  | false => simp [passCycle_of_not_rst hrst, Function.comp_def]

theorem passCycle_iterate_frame (k : Nat) (s : State) (as : List InFlight) :
    { passCycle^[k] s with inFlight := as } = { s with inFlight := as } := by
  induction k with
  | zero => rfl
  | succ k ih => rw [Function.iterate_succ_apply', passCycle_frame, ih]

theorem passCycle_iterate_toPortResponse (k : Nat) (s : State) :
    (passCycle^[k] s).inFlight.map InFlight.toPortResponse = s.inFlight.map InFlight.toPortResponse := by
  induction k with
  | zero => rfl
  | succ k ih => rw [Function.iterate_succ_apply', passCycle_toPortResponse, ih]

theorem passCycle_iterate_rst (k : Nat) (s : State) : (passCycle^[k] s).rst = s.rst := by
  have hframe := congrArg State.rst (passCycle_iterate_frame k s [])
  exact hframe

/-- After `k` cycles the oldest response of a port is the oldest still, `k` cycles older. -/
theorem oldestOn_passCycle_iterate {s : State} {port : Nat} {a others} (hrst : s.rst = false)
    (ho : oldestOn port s.inFlight = some (a, others)) (k : Nat) :
    ∃ others', oldestOn port (passCycle^[k] s).inFlight = some ({ a with age := a.age + k }, others') := by
  induction k with
  | zero => exact ⟨others, ho⟩
  | succ k ih =>
    obtain ⟨others', ih⟩ := ih
    have hrst' : (passCycle^[k] s).rst = false := by rw [passCycle_iterate_rst, hrst]
    rw [Function.iterate_succ_apply', passCycle_of_not_rst hrst']
    exact ⟨others'.map InFlight.older, by rw [oldestOn_older, ih]; rfl⟩

/-! The responses of a port (R246) -/

theorem answersOn_congr {s t : State} (hd : t.delivered = s.delivered)
    (hf : t.inFlight.map InFlight.toPortResponse = s.inFlight.map InFlight.toPortResponse) (port : Nat) :
    t.answersOn port = s.answersOn port := by
  simp [State.answersOn, hd, hf]

/-- A request accepted adds one response at the end of its port's sequence, and to no other. -/
theorem answersOn_respond (s : State) (q : PortRequest) (r : Response) (rest : List PortRequest) (port : Nat) :
    (s.respond q.port r rest).answersOn port = s.answersOn port ++ if q.port = port then [r] else [] := by
  by_cases hp : q.port = port <;> simp [State.answersOn, List.filter_append, hp]

/-- The oldest response in flight on a port is the next in its sequence, so delivering it changes no sequence. -/
theorem answersOn_deliver {s : State} {before after : List InFlight} {a : InFlight}
    (hs : s.inFlight = before ++ a :: after) (hb : ∀ b ∈ before, b.port ≠ a.port) (port : Nat) :
    (s.deliver before a after).answersOn port = s.answersOn port := by
  by_cases hp : a.port = port
  · subst hp
    have hnil : (before.map InFlight.toPortResponse).filter (fun b => b.port == a.port) = [] := by
      simpa [List.filter_eq_nil_iff] using hb
    simp [State.answersOn, State.deliver, hs, List.filter_append, hnil]
  · simp [State.answersOn, State.deliver, hs, List.filter_append, hp]

/-! What a step can do -/

/-- The updates a step makes, once its move is taken from the agenda: nothing, one signal driven, one transfer
(R241, R247), or one clock cycle (R249). -/
inductive StepEffect (s : State) : State → Prop
  | idle : StepEffect s s
  | issue (q : PortRequest) : StepEffect s (presentRequest s q)
  | driveRspReady (port : Nat) (level : Bool) : StepEffect s (driveRspReady s port level)
  | driveRst (level : Bool) : StepEffect s (driveRst s level)
  | respond (q : PortRequest) (r : Response) (rest : List PortRequest) (hrst : s.rst = false)
      (hq : s.requests = q :: rest) : StepEffect s (s.respond q.port r rest)
  | deliver (before : List InFlight) (a : InFlight) (after : List InFlight) (hrst : s.rst = false)
      (hready : a.port ∈ s.rspReady) (hs : s.inFlight = before ++ a :: after)
      (hb : ∀ b ∈ before, b.port ≠ a.port) (hover : a.latencyOver = true) :
      StepEffect s (s.deliver before a after)
  | cycle : StepEffect s (passCycle s)

theorem serve_effect {s t : State} (h : serve s = .next t) : StepEffect s t := by
  obtain ⟨rfl, -⟩ | ⟨q, rest, l, r, hrst, hq, -, rfl, -⟩ := serve_eq_next h
  · exact .idle
  · exact .respond q r rest hrst hq

theorem deliverOn_effect {s t : State} {port : Nat} (h : deliverOn s port = .next t) : StepEffect s t := by
  obtain rfl | ⟨a, before, after, hrst, hready, hs, rfl, hb, hover, -, rfl⟩ := deliverOn_eq_next h
  · exact .idle
  · exact .deliver before a after hrst hready hs hb hover

theorem move_effect {m : Move} {s t : State} (h : move m s = .next t) : StepEffect s t := by
  cases m with
  | issue q => cases h; exact .issue q
  | driveRspReady port level => cases h; exact .driveRspReady port level
  | driveRst level => cases h; exact .driveRst level
  | serve => exact serve_effect h
  | deliver port => exact deliverOn_effect h
  | cycle => cases h; exact .cycle

/-- Everything a step can do: with `ms` left of the agenda, one of the updates. -/
theorem step_effect {s t : State} (h : step s = .next t) : ∃ ms, StepEffect { s with agenda := ms } t := by
  rcases step_cases s with ⟨-, e | ⟨port, e⟩ | e⟩ | ⟨m, rest, -, e⟩ <;> rw [e] at h
  · exact ⟨s.agenda, serve_effect h⟩
  · exact ⟨s.agenda, deliverOn_effect h⟩
  · cases h; exact ⟨s.agenda, .cycle⟩
  · exact ⟨rest, move_effect h⟩

/-- With nothing scheduled a request presented is accepted at once (log 6, log 7). -/
theorem step_of_presents {s : State} {q : PortRequest} {rest : List PortRequest} (ha : s.agenda = [])
    (hrst : s.rst = false) (hq : s.Presents q rest) : step s = serve s :=
  (step_of_nil ha).trans (autonomous_of_presents hrst hq)

/-- R241-R243: an assertion of `rst` and its deassertion leave what was presented and delivered, and nothing in
flight. -/
theorem run_reset {s : State} (ha : s.agenda = [.driveRst true, .driveRst false]) :
    ∃ t, core.run 2 s = .next t ∧ t.rst = false ∧ t.inFlight = [] ∧ t.agenda = [] ∧ t.block = s.block ∧
      t.requests = s.requests := by
  have hassert : step s = .next { s with rst := true, inFlight := [], agenda := [.driveRst false] } :=
    step_of_cons ha
  exact ⟨{ s with rst := false, inFlight := [], agenda := [] }, run_succ_of_next hassert, rfl, rfl, rfl, rfl, rfl⟩

/-- R246: what each update does to the sequences of responses. -/
theorem effect_answersInOrder {s t : State} (h : StepEffect s t) : (∃ ds, t.delivered = s.delivered ++ ds) ∧
    ((∃ more, t.requests = s.requests ++ more ∧ ∀ port, t.answersOn port = s.answersOn port) ∨
      (∃ q r, s.requests = q :: t.requests ∧
        ∀ port, t.answersOn port = s.answersOn port ++ if q.port = port then [r] else []) ∨
      (t.rst = true ∧ t.requests = s.requests ∧ t.inFlight = [] ∧ t.delivered = s.delivered)) := by
  cases h with
  | idle => exact ⟨⟨[], by simp⟩, .inl ⟨[], by simp, fun _ => rfl⟩⟩
  | issue q => exact ⟨⟨[], by simp⟩, .inl ⟨[q], rfl, answersOn_congr rfl rfl⟩⟩
  | driveRspReady port level =>
    exact ⟨⟨[], by simp⟩, .inl ⟨[], by simp, answersOn_congr (by simp) (by simp)⟩⟩
  | driveRst level =>
    cases level with
    | true => exact ⟨⟨[], by simp⟩, .inr (.inr ⟨rfl, rfl, rfl, rfl⟩)⟩
    | false => exact ⟨⟨[], by simp⟩, .inl ⟨[], by simp, answersOn_congr rfl rfl⟩⟩
  | respond q r rest hrst hq =>
    exact ⟨⟨[], by simp⟩, .inr (.inl ⟨q, r, hq, answersOn_respond s q r rest⟩)⟩
  | deliver before a after hrst hready hs hb hover =>
    exact ⟨⟨[a.toPortResponse], rfl⟩, .inl ⟨[], by simp [State.deliver], answersOn_deliver hs hb⟩⟩
  | cycle =>
    exact ⟨⟨[], by simp⟩, .inl ⟨[], by simp, answersOn_congr (by simp) (passCycle_toPortResponse s)⟩⟩

/-- R247: no update changes the request at the head unless it accepts it. -/
theorem effect_holdsRequest {s t : State} (h : StepEffect s t) {q : PortRequest} {rest : List PortRequest}
    (hq : s.Presents q rest) :
    (∃ more, t.requests = s.requests ++ more) ∨ (s.rst = false ∧ t.requests = rest ∧
      ∃ r, t.inFlight = s.inFlight ++ [{ port := q.port, rsp := r, ticket := s.accepted, age := 0 }]) := by
  cases h with
  | idle => exact .inl ⟨[], by simp⟩
  | issue q' => exact .inl ⟨[q'], rfl⟩
  | driveRspReady port level => exact .inl ⟨[], by simp⟩
  | driveRst level => exact .inl ⟨[], by cases level <;> simp⟩
  | respond q' r rest' hrst hq' =>
    obtain ⟨rfl, rfl⟩ := List.cons.inj (hq.symm.trans hq')
    exact .inr ⟨hrst, rfl, r, rfl⟩
  | deliver before a after hrst hready hs hb hover => exact .inl ⟨[], by simp [State.deliver]⟩
  | cycle => exact .inl ⟨[], by simp⟩

/-- R247: no update changes the oldest response of a port but in its age, unless it delivers it or asserts
`rst`. -/
theorem effect_holdsResponse {s t : State} (h : StepEffect s t) {port : Nat} {a : InFlight} {others}
    (ho : oldestOn port s.inFlight = some (a, others)) :
    (∃ a' others', oldestOn port t.inFlight = some (a', others') ∧
      a'.toPortResponse = a.toPortResponse ∧ (a.latencyOver = true → a'.latencyOver = true)) ∨
    (s.rspValid port = true ∧ s.rspReadyOn port = true ∧ t.delivered = s.delivered ++ [a.toPortResponse]) ∨
    t.rst = true := by
  cases h with
  | idle => exact .inl ⟨a, others, ho, rfl, id⟩
  | issue q => exact .inl ⟨a, others, ho, rfl, id⟩
  | driveRspReady p level => exact .inl ⟨a, others, by simpa using ho, rfl, id⟩
  | driveRst level =>
    cases level with
    | true => exact .inr (.inr rfl)
    | false => exact .inl ⟨a, others, ho, rfl, id⟩
  | respond q r rest hrst hq => exact .inl ⟨a, _, oldestOn_append_left ho, rfl, id⟩
  | deliver before b after hrst hready hs hb hover =>
    by_cases hp : b.port = port
    · subst hp
      have hold : oldestOn b.port s.inFlight = some (b, before ++ after) := hs ▸ oldestOn_append hb rfl
      obtain ⟨rfl, -⟩ := Prod.mk.inj (Option.some.inj (ho.symm.trans hold))
      exact .inr (.inl ⟨rspValid_iff.2 ⟨hrst, a, _, ho, hover⟩, rspReadyOn_iff.2 hready, rfl⟩)
    · obtain ⟨others', ho'⟩ := oldestOn_remove_other hp (hs ▸ ho)
      exact .inl ⟨a, others', ho', rfl, id⟩
  | cycle =>
    cases hrst : s.rst with
    | true => exact .inr (.inr (by simpa using hrst))
    | false =>
      refine .inl ⟨a.older, others.map InFlight.older, ?_, rfl, older_latencyOver⟩
      rw [passCycle_of_not_rst hrst, oldestOn_older, ho]
      rfl

/-! Liveness (R248): what is left to do, and that each step does some of it -/

/-- The steps that a response in flight still needs of its own: what is left of its latency, and its delivery. -/
def InFlight.stepsLeft (a : InFlight) : Nat := 1 + (Config.latency a.ticket - a.age)

/-- A bound on the steps until nothing is presented or in flight: those of the responses in flight, and for each
request its acceptance, its latency and its delivery. -/
def State.stepsLeft (s : State) : Nat :=
  (s.inFlight.map InFlight.stepsLeft).sum +
    ∑ j ∈ Finset.range s.requests.length, (2 + Config.latency (s.accepted + j))

/-- A state that the machine empties by itself (log 6): `rst` deasserted, nothing scheduled, every port concerned
ready. -/
structure State.Draining (s : State) : Prop where
  inv : s.Inv
  agenda : s.agenda = []
  rst : s.rst = false
  requestsReady : ∀ q ∈ s.requests, q.port ∈ s.rspReady
  inFlightReady : ∀ a ∈ s.inFlight, a.port ∈ s.rspReady

/-- From `s` to `t` responses were delivered after those before, and each port got one new response for each of
its requests accepted. -/
def State.Progress (s t : State) : Prop :=
  (∃ ds, t.delivered = s.delivered ++ ds) ∧
    ∀ port, ∃ new, t.answersOn port = s.answersOn port ++ new ∧
      new.length + (t.requests.countP fun q => q.port == port) = s.requests.countP fun q => q.port == port

theorem State.Progress.refl (s : State) : s.Progress s :=
  ⟨⟨[], by simp⟩, fun _ => ⟨[], by simp, by simp⟩⟩

theorem State.Progress.trans {s t u : State} (h : s.Progress t) (h' : t.Progress u) : s.Progress u := by
  obtain ⟨⟨ds, hd⟩, hnew⟩ := h
  obtain ⟨⟨ds', hd'⟩, hnew'⟩ := h'
  refine ⟨⟨ds ++ ds', by simp [hd', hd]⟩, fun port => ?_⟩
  obtain ⟨new, ha, hn⟩ := hnew port
  obtain ⟨new', ha', hn'⟩ := hnew' port
  exact ⟨new ++ new', by simp [ha', ha], by rw [List.length_append]; omega⟩

theorem progress_of_answersOn {s t : State} (hd : ∃ ds, t.delivered = s.delivered ++ ds)
    (hq : t.requests = s.requests) (ha : ∀ port, t.answersOn port = s.answersOn port) : s.Progress t :=
  ⟨hd, fun port => ⟨[], by simp [ha], by simp [hq]⟩⟩

theorem progress_respond {s : State} {q : PortRequest} {rest : List PortRequest} (hq : s.requests = q :: rest)
    (r : Response) : s.Progress (s.respond q.port r rest) := by
  refine ⟨⟨[], by simp⟩, fun port => ⟨_, answersOn_respond s q r rest port, ?_⟩⟩
  by_cases hp : q.port = port <;> simp [hq, hp, Nat.add_comm]

/-- The request accepted leaves the queue and its response joins those in flight, one step nearer delivery. -/
theorem stepsLeft_respond {s : State} {q : PortRequest} {rest : List PortRequest} (hq : s.requests = q :: rest)
    (r : Response) : (s.respond q.port r rest).stepsLeft + 1 = s.stepsLeft := by
  have hshift : ∀ j, s.accepted + 1 + j = s.accepted + (j + 1) := by omega
  simp only [State.stepsLeft, respond_inFlight, respond_requests, respond_accepted, hq, List.length_cons,
    Finset.sum_range_succ', List.map_append, List.sum_append, List.map_cons, List.map_nil, List.sum_cons,
    List.sum_nil, InFlight.stepsLeft, hshift, Nat.add_zero, Nat.sub_zero]
  omega

theorem stepsLeft_deliver {s : State} {before after : List InFlight} {a : InFlight}
    (hs : s.inFlight = before ++ a :: after) : (s.deliver before a after).stepsLeft + 1 ≤ s.stepsLeft := by
  simp only [State.stepsLeft, State.deliver, hs, List.map_append, List.sum_append, List.map_cons, List.sum_cons,
    InFlight.stepsLeft]
  omega

theorem stepsLeft_older_le (a : InFlight) : a.older.stepsLeft ≤ a.stepsLeft := by
  simp only [InFlight.stepsLeft, older_ticket, older_age]
  omega

theorem stepsLeft_older_of_not_over {a : InFlight} (h : a.latencyOver = false) :
    a.older.stepsLeft + 1 = a.stepsLeft := by
  have hwait : ¬Config.latency a.ticket ≤ a.age := of_decide_eq_false h
  simp only [InFlight.stepsLeft, older_ticket, older_age]
  omega

/-- A cycle takes one from the steps left of the oldest response of all while its latency is not over. -/
theorem stepsLeft_passCycle {s : State} {a : InFlight} {as : List InFlight} (hrst : s.rst = false)
    (hs : s.inFlight = a :: as) (h : a.latencyOver = false) : (passCycle s).stepsLeft + 1 ≤ s.stepsLeft := by
  have hrest : (as.map (InFlight.stepsLeft ∘ InFlight.older)).sum ≤ (as.map InFlight.stepsLeft).sum :=
    List.sum_le_sum fun b _ => stepsLeft_older_le b
  have hhead := stepsLeft_older_of_not_over h
  simp only [State.stepsLeft, passCycle_of_not_rst hrst, hs, List.map_cons, List.map_map, List.sum_cons]
  omega

/-! What a step with nothing scheduled does (log 6) -/

theorem autonomous_of_deliverable {s : State} {port : Nat} (hq : s.requests = [])
    (h : nextDeliverable s = some port) : autonomous s = deliverOn s port := by
  simp [autonomous, State.reqValid, hq, h]

theorem autonomous_of_not_deliverable {s : State} (hq : s.requests = []) (h : nextDeliverable s = none) :
    autonomous s = .next (passCycle s) := by
  simp [autonomous, State.reqValid, hq, h]

theorem nextDeliverable_eq_some {s : State} {port : Nat} (h : nextDeliverable s = some port) :
    s.rspValid port = true ∧ s.rspReadyOn port = true := by
  obtain ⟨a, hfind, rfl⟩ := Option.map_eq_some_iff.1 h
  simpa using List.find?_some hfind

/-- With every port ready, nothing is deliverable only while the oldest response of all waits for its latency. -/
theorem latencyOver_of_not_deliverable {s : State} {a : InFlight} {as : List InFlight} (hrst : s.rst = false)
    (hs : s.inFlight = a :: as) (hready : a.port ∈ s.rspReady) (h : nextDeliverable s = none) :
    a.latencyOver = false := by
  have hnot := List.find?_eq_none.1 (Option.map_eq_none_iff.1 h) a (by simp [hs])
  have ho : oldestOn a.port s.inFlight = some (a, as) := by simp [hs, oldestOn]
  simpa [rspReadyOn_iff.2 hready, rspValid_of_oldestOn ho, hrst] using hnot

/-- A step leads on to a draining state with progress made and fewer steps left. -/
def State.DrainsFurther (s : State) : Prop :=
  ∃ t, step s = .next t ∧ t.Draining ∧ t.stepsLeft + 1 ≤ s.stepsLeft ∧ s.Progress t

theorem draining_serve {s : State} (h : s.Draining) {q : PortRequest} {rest : List PortRequest}
    (hq : s.requests = q :: rest) : s.DrainsFurther := by
  obtain ⟨l, hlut, -, hvalid⟩ := lut_of_romsHoldProfile h.inv.1
  obtain ⟨r, hr⟩ := exists_response_of_valid hvalid q.req
  have hstep : step s = .next (s.respond q.port r rest) := by
    rw [step_of_presents h.agenda h.rst hq, hr s q rest h.rst hlut hq rfl]
  refine ⟨_, hstep, ⟨step_keeps_inv h.inv hstep, h.agenda, h.rst, fun p hp => ?_, fun a ha => ?_⟩,
    (stepsLeft_respond hq r).le, progress_respond hq r⟩
  · exact h.requestsReady p (by rw [hq]; exact List.mem_cons_of_mem q hp)
  · rcases List.mem_append.1 ha with ha | ha
    · exact h.inFlightReady a ha
    · obtain rfl := List.mem_singleton.1 ha
      exact h.requestsReady q (by simp [hq])

theorem draining_deliver {s : State} (h : s.Draining) (hq : s.requests = []) {port : Nat}
    (hn : nextDeliverable s = some port) : s.DrainsFurther := by
  obtain ⟨hv, hr⟩ := nextDeliverable_eq_some hn
  obtain ⟨-, a, rest, ho, -⟩ := rspValid_iff.1 hv
  obtain ⟨before, after, hs, -, rfl, hb⟩ := oldestOn_eq_some ho
  obtain ⟨-, -, -, hflight, -⟩ := h.inv
  have hstep : step s = .next (s.deliver before a after) := by
    rw [step_of_nil h.agenda, autonomous_of_deliverable hq hn, deliverOn_of_handshake hs hb hv hr,
      statusReserved_of_responseWf (hflight a (by simp [hs]))]
    rfl
  refine ⟨_, hstep, ⟨step_keeps_inv h.inv hstep, h.agenda, h.rst, h.requestsReady, fun b hmem => ?_⟩,
    stepsLeft_deliver hs, progress_of_answersOn ⟨_, rfl⟩ rfl (answersOn_deliver hs hb)⟩
  have hsub : (before ++ after).Sublist s.inFlight := by
    rw [hs]; exact (List.Sublist.refl before).append (List.sublist_cons_self a after)
  exact h.inFlightReady b (hsub.subset hmem)

theorem draining_cycle {s : State} (h : s.Draining) (hq : s.requests = []) (hf : s.inFlight ≠ [])
    (hn : nextDeliverable s = none) : s.DrainsFurther := by
  obtain ⟨a, as, hs⟩ := List.exists_cons_of_ne_nil hf
  have hwait := latencyOver_of_not_deliverable h.rst hs (h.inFlightReady a (by simp [hs])) hn
  have hstep : step s = .next (passCycle s) := by
    rw [step_of_nil h.agenda, autonomous_of_not_deliverable hq hn]
  refine ⟨_, hstep, ⟨step_keeps_inv h.inv hstep, by simp [h.agenda], by simp [h.rst],
      by simp [hq], fun b hb => ?_⟩, stepsLeft_passCycle h.rst hs hwait,
    progress_of_answersOn ⟨[], by simp⟩ (by simp) (answersOn_congr (by simp) (passCycle_toPortResponse s))⟩
  rw [passCycle_of_not_rst h.rst] at hb
  obtain ⟨c, hc, rfl⟩ := List.mem_map.1 hb
  simpa using h.inFlightReady c hc

/-- While anything is presented or in flight, a step serves, delivers, or shortens the latency waited for. -/
theorem draining_step {s : State} (h : s.Draining) (hne : ¬(s.requests = [] ∧ s.inFlight = [])) :
    s.DrainsFurther := by
  cases hq : s.requests with
  | cons q rest => exact draining_serve h hq
  | nil =>
    cases hn : nextDeliverable s with
    | some port => exact draining_deliver h hq hn
    | none => exact draining_cycle h hq (fun hf => hne ⟨hq, hf⟩) hn

/-- R248: a draining state is empty within its steps left, each step leaving fewer. -/
theorem draining_run {s : State} (h : s.Draining) :
    ∃ k t, core.run k s = .next t ∧ k ≤ s.stepsLeft ∧ t.requests = [] ∧ t.inFlight = [] ∧ s.Progress t := by
  by_cases hne : s.requests = [] ∧ s.inFlight = []
  · exact ⟨0, s, rfl, Nat.zero_le _, hne.1, hne.2, .refl s⟩
  · obtain ⟨t, hstep, ht, hlt, hprogress⟩ := draining_step h hne
    obtain ⟨k, u, hrun, hk, hreq, hflight, hprogress'⟩ := draining_run ht
    exact ⟨k + 1, u, (run_succ_of_next hstep).trans hrun, by omega, hreq, hflight, hprogress.trans hprogress'⟩
termination_by s.stepsLeft
decreasing_by omega

/-! The statements -/

/-- Settles O46: `rst` holds `req_ready` and every `rsp_valid` at 0, and a cycle then changes nothing. -/
theorem assertedResetBlocksTheChannels : Obligations.AssertedResetBlocksTheChannels := by
  intro s h
  have hdeliver : ∀ port, deliverOn s port = .next s :=
    fun port => deliverOn_of_not_valid (rspValid_of_rst h port)
  refine ⟨by simp [State.reqReady, h], rspValid_of_rst h, serve_of_rst h, hdeliver, fun ha => ?_⟩
  rw [step_of_nil ha]
  rcases autonomous_cases s with e | ⟨port, -, e⟩ | ⟨-, e⟩ <;> rw [e]
  · exact serve_of_rst h
  · exact hdeliver port
  · rw [passCycle_of_rst h]

/-- Settles O48: the two moves leave the unit, the request and `rst` at 0, and a valid unit has one response to a
request. -/
theorem answersAreTheSameAfterReset : Obligations.AnswersAreTheSameAfterReset := by
  intro s l q rest ha hlut hq
  obtain ⟨r, hr⟩ := exists_response_of_valid (lut_valid hlut) q.req
  obtain ⟨t, hrun, hrst, hflight, hagenda, hblock, hreq⟩ := run_reset ha
  have hqt : t.Presents q rest := hreq.trans hq
  refine ⟨t, r, hrun, hrst, hflight, hagenda, ?_,
    fun s' q' rest' hlut' hrst' hq' => hr s' q' rest' hrst' hlut' hq'⟩
  rw [step_of_presents hagenda hrst hqt]
  exact hr t q rest hrst ((lut_congr hblock).trans hlut) hqt rfl

/-- Settles O49: no update a step can make reorders the responses of a port. -/
theorem portsAnswerInOrder : Obligations.PortsAnswerInOrder := by
  intro s t h
  obtain ⟨ms, heffect⟩ := step_effect h
  exact effect_answersInOrder (s := { s with agenda := ms }) heffect

/-- Settles O50: the response transfer, signal by signal. -/
theorem deliveryFollowsTheHandshake : Obligations.DeliveryFollowsTheHandshake := by
  refine ⟨fun s port ms ha => step_of_cons ha, ?_⟩
  rintro s port before a after hs rfl hb
  refine ⟨fun hv hr hstatus => ?_, fun hv hr hstatus => ?_, deliverOn_of_not_ready, deliverOn_of_not_valid,
    fun hv => (rspValid_iff.1 hv).1⟩
  · rw [deliverOn_of_handshake hs hb hv hr, hstatus]
    rfl
  · rw [deliverOn_of_handshake hs hb hv hr, hstatus]
    rfl

/-- Settles O51: an operation appends its response 0 cycles old, and each cycle adds one to its age. -/
theorem responseBecomesValidAfterItsLatency : Obligations.ResponseBecomesValidAfterItsLatency := by
  refine ⟨fun i s t h => ?_, fun s ms ha => step_of_cons ha, fun s port a others k hrst ho => ?_⟩
  · obtain ⟨q, rest, l, r, -, -, -, rfl⟩ := exec_eq_next h
    exact ⟨_, respond_inFlight s q.port r rest, rfl, rfl⟩
  · refine ⟨?_, passCycle_iterate_toPortResponse k s, passCycle_iterate_frame k s s.inFlight⟩
    obtain ⟨others', ho'⟩ := oldestOn_passCycle_iterate hrst ho k
    rw [rspValid_of_oldestOn ho', passCycle_iterate_rst, hrst]
    exact decide_eq_true_iff

/-- Settles O52: each update a step can make holds both bundles, transfers one, or asserts `rst`. -/
theorem waitingBundlesAreHeldStable : Obligations.WaitingBundlesAreHeldStable := by
  intro s t h
  obtain ⟨ms, heffect⟩ := step_effect h
  exact ⟨fun q rest hq => effect_holdsRequest heffect hq, fun port a others ho => effect_holdsResponse heffect ho⟩

/-- Settles O54: the state drains within its steps left, and with no request left each port has all its
responses. -/
theorem everyRequestIsAnsweredAndDelivered : Obligations.EveryRequestIsAnsweredAndDelivered := by
  intro s hinv ha hrst hq hf
  obtain ⟨k, t, hrun, hk, hreq, hflight, hdelivered, hnew⟩ := draining_run ⟨hinv, ha, hrst, hq, hf⟩
  refine ⟨k, t, hrun, hk, hreq, hflight, hdelivered, fun port => ?_⟩
  obtain ⟨new, hanswers, hlength⟩ := hnew port
  exact ⟨new, hanswers, by simpa [hreq] using hlength⟩

/-- Settles O47: the scheduled move is `driveRst`. -/
theorem assertingResetDropsWhatIsInFlight : Obligations.AssertingResetDropsWhatIsInFlight :=
  fun _ _ ha => ⟨_, step_of_cons ha, rfl, rfl, rfl, rfl, rfl, rfl, rfl, rfl⟩

/-- Settles O53: a step with a move scheduled makes it, and each move's frame says what it leaves alone. -/
theorem movesDriveOnlyTheirSignals : Obligations.MovesDriveOnlyTheirSignals := by
  refine fun s ms => ⟨fun q ha => step_of_cons ha, fun ha => step_of_cons ha, fun port level ha => ?_,
    fun ha => step_of_cons ha, fun ha => ?_⟩
  · exact ⟨_, step_of_cons ha, driveRspReady_rspReadyOn { s with agenda := ms } port level,
      driveRspReady_frame { s with agenda := ms } port level⟩
  · exact ⟨_, step_of_cons ha, passCycle_toPortResponse { s with agenda := ms },
      passCycle_frame { s with agenda := ms } s.inFlight⟩

end Sys2Proof.Machine
end
